-- ==== Sys2Proof/Word.lean ====
section
/-! DEFINITION. The word types of the JCB: its byte, and the holder of an XLEN-bit register or data word. -/

namespace Sys2Proof

/-- A byte, 8 bits (spec `00_scope.md` section 6). -/
abbrev Byte := BitVec 8

/-- The holder of an XLEN-bit value. XLEN is a parameter between 32 and 64 (R3), so 64 bits hold every
legal width; the bits from XLEN up are zero in every reachable state (`Sys2Proof.Machine.RegsInRange`).
DESIGN CHOICE (log 2), safe. -/
abbrev Word := BitVec 64

end Sys2Proof
end

