-- ==== Sys2Proof/Syntax.lean ====
section
/-! DEFINITION. The commands of the JCB, one constructor for each of the 33 rows of the operation-code map
(R64, `spec/opcode_table.json`), and the names their operands use. -/

namespace Sys2Proof

/-- The four general registers (R10); all four values of a register field are legal (R63). -/
inductive Reg where
  | x0 | x1 | x2 | x3
  deriving DecidableEq, Repr

/-- The buffer select `k` (R61): 0 is `S`, the source buffer, 1 is `D`, the destination buffer. -/
inductive BufSel where
  | S | D
  deriving DecidableEq, Repr

/-- The fourteen control and status registers of R22, in the order of their numbers 0 to 13. -/
inductive Csr where
  | crc | lrc | status | fcsexp | fcsact | fcause | fcmd | finfo
  | slen | soff | dlen | doff | capr | xlenr
  deriving DecidableEq, Repr

/-- A command of the JCB with its operands (R64). Immediates are unsigned fields of the width R61 gives them
(R63); `csr` is the raw number, whose range the meaning checks (R104, R105). -/
inductive Instr where
  -- system commands (`40_system_buffer.md` section 1)
  | nop
  | rst
  | setx (rd : Reg)
  | getx (rs : Reg)
  | csrr (rd : Reg) (csr : Byte)
  | csrw (rs : Reg) (csr : Byte)
  -- buffer commands (`40_system_buffer.md` section 2)
  | bnew (k : BufSel) (n : BitVec 16)
  | bput (k : BufSel) (b : Byte)
  | bget (rd : Reg) (k : BufSel)
  | bseek (k : BufSel) (pos : BitVec 16)
  | bswap
  | bputx (rs : Reg) (k : BufSel)
  -- bit-field unit (`41_bitfield.md`)
  | bfext (rd rs1 : Reg) (cnt start : BitVec 7)
  | bffill (rd rs1 rs2 : Reg) (cnt start : BitVec 7)
  | mtclr
  | mtset (idx pos : BitVec 7)
  | flpack (rd rs1 : Reg)
  | flunpk (rd rs1 : Reg)
  -- extended-value unit (`42_extended.md`)
  | extenc (rs : Reg)
  | extdec (rd : Reg)
  -- CRC-16 generator and LRC-8 accumulator (`43_checksum.md`)
  | crcinit
  | crcupd (b : Byte)
  | crcbuf
  | crcget (rd : Reg)
  | lrcinit
  | lrcseed (b : Byte)
  | lrcupd (b : Byte)
  | lrcbuf
  | lrcget (rd : Reg)
  -- byte-stuffing framer (`44_frame.md`)
  | stuff
  | unstuff
  | frmenc
  | frmdec
  deriving DecidableEq, Repr

end Sys2Proof
end

