-- ==== Sys2Proof/Decode.lean ====
section
/-! DEFINITION. The command-word decoder and encoder, both written from the field positions, formats and
operation-code map of `30_encoding.md` Part A (R60 to R65). -/

namespace Sys2Proof

/-- `w[hi:lo]` of `00_scope.md` section 6: bits hi down to lo of a command word, as an unsigned integer. -/
def bits (w : BitVec 32) (hi lo : Nat) : Nat :=
  (w.toNat >>> lo) % 2 ^ (hi - lo + 1)

/-- The register with a number 0..3 (R63). -/
def Reg.ofNumber (n : Nat) : Reg :=
  match n with
  | 0 => .x0
  | 1 => .x1
  | 2 => .x2
  | _ => .x3

/-- The number of a register. -/
def Reg.number : Reg → Nat
  | .x0 => 0
  | .x1 => 1
  | .x2 => 2
  | .x3 => 3

/-- The buffer that the `k` field selects (R61). -/
def BufSel.ofNumber (n : Nat) : BufSel :=
  match n with
  | 0 => .S
  | _ => .D

/-- The value of the `k` field that selects a buffer. -/
def BufSel.number : BufSel → Nat
  | .S => 0
  | .D => 1

/-- The fields of R61. -/
def opField (w : BitVec 32) : Nat := bits w 31 24
@[inherit_doc opField] def raField (w : BitVec 32) : Reg := .ofNumber (bits w 23 22)
@[inherit_doc opField] def rbField (w : BitVec 32) : Reg := .ofNumber (bits w 21 20)
@[inherit_doc opField] def rcField (w : BitVec 32) : Reg := .ofNumber (bits w 19 18)
@[inherit_doc opField] def kField (w : BitVec 32) : BufSel := .ofNumber (bits w 16 16)
@[inherit_doc opField] def cntField (w : BitVec 32) : BitVec 7 := .ofNat 7 (bits w 14 8)
@[inherit_doc opField] def startField (w : BitVec 32) : BitVec 7 := .ofNat 7 (bits w 6 0)
@[inherit_doc opField] def imm8Field (w : BitVec 32) : Byte := .ofNat 8 (bits w 7 0)
@[inherit_doc opField] def imm16Field (w : BitVec 32) : BitVec 16 := .ofNat 16 (bits w 15 0)

/-- The eleven formats of R62. -/
inductive Format where
  | Z | A | AC | AK | AB | I8 | K8 | K16 | F2 | F3 | M
  deriving DecidableEq, Repr

/-- The must-be-zero bits of each format, as ranges `(hi, lo)` (R62). -/
def Format.mustBeZero : Format → List (Nat × Nat)
  | .Z => [(23, 0)]
  | .A => [(21, 0)]
  | .AC => [(21, 8)]
  | .AK => [(21, 17), (15, 0)]
  | .AB => [(19, 0)]
  | .I8 => [(23, 8)]
  | .K8 => [(23, 17), (15, 8)]
  | .K16 => [(23, 17)]
  | .F2 => [(19, 15), (7, 7)]
  | .F3 => [(17, 15), (7, 7)]
  | .M => [(23, 15), (7, 7)]

/-- Why a word is no command: the two clauses (a) and (b) of R65. -/
inductive DecodeError where
  /-- R65 (a): the operation code is not one of the 33. -/
  | unknownOp
  /-- R65 (b): a must-be-zero bit of the format is 1. -/
  | reservedBits
  deriving DecidableEq, Repr

/-- The operation-code map of R64: the format and the command that each operation code stands for, its
operands taken from the fields; `none` for an operation code that is not in the map. -/
def opcodeMap (w : BitVec 32) : Option (Format × Instr) :=
  match opField w with
  | 0x00 => some (.Z, .nop)
  | 0x01 => some (.Z, .rst)
  | 0x02 => some (.A, .setx (raField w))
  | 0x03 => some (.A, .getx (raField w))
  | 0x04 => some (.AC, .csrr (raField w) (imm8Field w))
  | 0x05 => some (.AC, .csrw (raField w) (imm8Field w))
  | 0x10 => some (.K16, .bnew (kField w) (imm16Field w))
  | 0x11 => some (.K8, .bput (kField w) (imm8Field w))
  | 0x12 => some (.AK, .bget (raField w) (kField w))
  | 0x13 => some (.K16, .bseek (kField w) (imm16Field w))
  | 0x14 => some (.Z, .bswap)
  | 0x15 => some (.AK, .bputx (raField w) (kField w))
  | 0x20 => some (.F2, .bfext (raField w) (rbField w) (cntField w) (startField w))
  | 0x21 => some (.F3, .bffill (raField w) (rbField w) (rcField w) (cntField w) (startField w))
  | 0x22 => some (.Z, .mtclr)
  | 0x23 => some (.M, .mtset (cntField w) (startField w))
  | 0x24 => some (.AB, .flpack (raField w) (rbField w))
  | 0x25 => some (.AB, .flunpk (raField w) (rbField w))
  | 0x30 => some (.A, .extenc (raField w))
  | 0x31 => some (.A, .extdec (raField w))
  | 0x40 => some (.Z, .crcinit)
  | 0x41 => some (.I8, .crcupd (imm8Field w))
  | 0x42 => some (.Z, .crcbuf)
  | 0x43 => some (.A, .crcget (raField w))
  | 0x48 => some (.Z, .lrcinit)
  | 0x49 => some (.I8, .lrcseed (imm8Field w))
  | 0x4A => some (.I8, .lrcupd (imm8Field w))
  | 0x4B => some (.Z, .lrcbuf)
  | 0x4C => some (.A, .lrcget (raField w))
  | 0x50 => some (.Z, .stuff)
  | 0x51 => some (.Z, .unstuff)
  | 0x52 => some (.Z, .frmenc)
  | 0x53 => some (.Z, .frmdec)
  | _ => none

/-- The decoder of R64: look the operation code up, then test the must-be-zero bits, then take the fields. The
range of a `csr` operand (R65 (c)) is checked where R104 and R105 check it, in the meanings (DEDUCED, log 7:
both places raise the same fault and change nothing else). -/
def decode (w : BitVec 32) : Except DecodeError Instr :=
  match opcodeMap w with
  | none => .error .unknownOp
  | some (f, i) => if f.mustBeZero.all fun r => bits w r.1 r.2 == 0 then .ok i else .error .reservedBits

/-- A command word assembled from its fields (R62). The fields are disjoint, so the sum is the rule's `|`; the
last argument is `start`, `imm8` or `imm16`. -/
def assemble (op ra rb rc k cnt low : Nat) : BitVec 32 :=
  .ofNat 32 (op * 2 ^ 24 + ra * 2 ^ 22 + rb * 2 ^ 20 + rc * 2 ^ 18 + k * 2 ^ 16 + cnt * 2 ^ 8 + low)

/-- The encoder: the command word of a command (R62, R64), absent fields zero. -/
def encode : Instr → BitVec 32
  | .nop => assemble 0x00 0 0 0 0 0 0
  | .rst => assemble 0x01 0 0 0 0 0 0
  | .setx rd => assemble 0x02 rd.number 0 0 0 0 0
  | .getx rs => assemble 0x03 rs.number 0 0 0 0 0
  | .csrr rd csr => assemble 0x04 rd.number 0 0 0 0 csr.toNat
  | .csrw rs csr => assemble 0x05 rs.number 0 0 0 0 csr.toNat
  | .bnew k n => assemble 0x10 0 0 0 k.number 0 n.toNat
  | .bput k b => assemble 0x11 0 0 0 k.number 0 b.toNat
  | .bget rd k => assemble 0x12 rd.number 0 0 k.number 0 0
  | .bseek k pos => assemble 0x13 0 0 0 k.number 0 pos.toNat
  | .bswap => assemble 0x14 0 0 0 0 0 0
  | .bputx rs k => assemble 0x15 rs.number 0 0 k.number 0 0
  | .bfext rd rs1 cnt start => assemble 0x20 rd.number rs1.number 0 0 cnt.toNat start.toNat
  | .bffill rd rs1 rs2 cnt start => assemble 0x21 rd.number rs1.number rs2.number 0 cnt.toNat start.toNat
  | .mtclr => assemble 0x22 0 0 0 0 0 0
  | .mtset idx pos => assemble 0x23 0 0 0 0 idx.toNat pos.toNat
  | .flpack rd rs1 => assemble 0x24 rd.number rs1.number 0 0 0 0
  | .flunpk rd rs1 => assemble 0x25 rd.number rs1.number 0 0 0 0
  | .extenc rs => assemble 0x30 rs.number 0 0 0 0 0
  | .extdec rd => assemble 0x31 rd.number 0 0 0 0 0
  | .crcinit => assemble 0x40 0 0 0 0 0 0
  | .crcupd b => assemble 0x41 0 0 0 0 0 b.toNat
  | .crcbuf => assemble 0x42 0 0 0 0 0 0
  | .crcget rd => assemble 0x43 rd.number 0 0 0 0 0
  | .lrcinit => assemble 0x48 0 0 0 0 0 0
  | .lrcseed b => assemble 0x49 0 0 0 0 0 b.toNat
  | .lrcupd b => assemble 0x4A 0 0 0 0 0 b.toNat
  | .lrcbuf => assemble 0x4B 0 0 0 0 0 0
  | .lrcget rd => assemble 0x4C rd.number 0 0 0 0 0
  | .stuff => assemble 0x50 0 0 0 0 0 0
  | .unstuff => assemble 0x51 0 0 0 0 0 0
  | .frmenc => assemble 0x52 0 0 0 0 0 0
  | .frmdec => assemble 0x53 0 0 0 0 0 0

/-- The command word whose low `nbits` bits are those of `w` and whose other bits are zero. A command is one
32-bit word, issued whole by the port (R60), so there is no byte order to choose. -/
def tableWord (nbits w : Nat) : BitVec 32 :=
  .ofNat 32 (w % 2 ^ nbits)

/-- The command the decoder reads from a row of the opcode table. -/
def decodeTableWord (nbits w : Nat) : Option Instr :=
  match decode (tableWord nbits w) with
  | .ok i => some i
  | .error _ => none

end Sys2Proof
end

