-- ==== Sys2Proof/Config.lean ====
section
/-! DEFINITION. What an implementation of the JCB fixes when it is built: the two parameters of R3. The JCB
leaves no value open, so there is no free value here. -/

namespace Sys2Proof

/-- The two implementation parameters of R3. They are fixed when the block is built, no command and no reset
changes them (R231), and `CSRR` reads them (CSRs 12 and 13, R22). DESIGN CHOICE (log 1): a machine carries
its parameters in its state, so that every statement about all states is about every build. -/
structure Config where
  /-- Width in bits of a register, of the port's data words and of the units' integers. -/
  xlen : Nat
  /-- Capacity in bytes of each byte buffer. -/
  cap : Nat
  deriving DecidableEq, Repr

namespace Config

/-- The default build of R3: XLEN = 32, CAP = 512. -/
def default : Config where
  xlen := 32
  cap := 512

/-- The legal parameters of R3. -/
abbrev Legal (c : Config) : Prop :=
  (32 ≤ c.xlen ∧ c.xlen ≤ 64) ∧ (1 ≤ c.cap ∧ c.cap ≤ 65535)

end Config

end Sys2Proof
end

