-- ==== Sys2Proof/Machine/State.lean ====
section
/-! DEFINITION. The state of the JCB (`10_state.md`) with the command port it is driven through (R4, R240), the
reasons a step could stop, and the state after reset (R28). -/

namespace Sys2Proof.Machine

/-- The reasons a step of the JCB stops the machine: there are none. A fault of R201 is reported in the response
and recorded in the state, and the next command runs normally (R200, R203), so it is a next state and never one
of these. Nobody raises this type; that it is empty is safe, since it only forbids stopping. -/
inductive Fault where
  deriving DecidableEq, Repr

/-- The reasons the model gives no meaning. -/
inductive Refusal where
  /-- Raised by an arm of `exec` for a command that has no meaning yet. No arm of this model raises it. Safe: a
  refused command makes no claim about the hardware. -/
  | notModelled (mnemonic : String)
  deriving DecidableEq, Repr

/-- The eight fault codes of R201, by name. -/
inductive FaultCode where
  | illegalCommand | outOfRange | capacity | bitRange
  | extOverflow | escapeError | maskOverlap | seekRange
  deriving DecidableEq, Repr

/-- The six flags of `status` (R15). -/
structure Status where
  /-- `VALID`: `Frame.isValid` of the last `FRMDEC`. -/
  valid : Bool
  /-- `EXPV`: the last `FRMDEC` got as far as splitting off the FCS, so `fcsexp` is defined. -/
  expv : Bool
  /-- `SYNC`: the last `FRMDEC` failed closed on a missing marker or a frame too short. -/
  sync : Bool
  /-- `ESC`: the last `FRMDEC` failed closed on a bad escape sequence. -/
  esc : Bool
  /-- `TRUNC`: the last `EXTDEC` ended because `S` was exhausted. -/
  trunc : Bool
  /-- `ERR`: some command has faulted since reset (sticky). -/
  err : Bool
  deriving DecidableEq, Repr

/-- The four general registers (R10). -/
structure Regs where
  x0 : Word
  x1 : Word
  x2 : Word
  x3 : Word
  deriving DecidableEq, Repr

/-- The bytes of one buffer: pairs of an index and the byte there, indices rising, no byte equal to what an
unlisted index reads as (`Memory.wf`). -/
abbrev Memory := List Host.Cell

/-- A byte buffer (R20): its length, its cursor, and its bytes at the indices below `len` (R21). -/
structure Buffer where
  len : Nat
  off : Nat
  bytes : Memory
  deriving DecidableEq, Repr

/-- What the host can do to the JCB: exactly two things (R240). -/
inductive HostInput where
  /-- The reset event (R230). -/
  | reset
  /-- A command `(cmd, wdata)` issued on the command port (R4). -/
  | command (cmd : BitVec 32) (wdata : Word)
  deriving DecidableEq, Repr

/-- The response `(rdata, fault)` to one command (R4). -/
structure Response where
  rdata : Word
  fault : BitVec 8
  deriving DecidableEq, Repr

/-- The machine: the state that the head of `10_state.md` lists, the build's parameters, and the command port. -/
structure State where
  /-- XLEN and CAP (R3). No command and no reset writes it (R231). -/
  config : Config
  /-- `x[0]` .. `x[3]` (R10). -/
  x : Regs
  /-- The raw CRC accumulator (R13). -/
  crc : BitVec 16
  /-- The LRC accumulator (R14). -/
  lrc : Byte
  /-- The flags (R15). -/
  status : Status
  /-- The FCS carried by the last frame decoded (R16). -/
  fcsexp : BitVec 16
  /-- The FCS recomputed for the last frame decoded (R16). -/
  fcsact : BitVec 16
  /-- The code of the last fault (R17). -/
  fcause : BitVec 8
  /-- The command word of the last fault (R17). -/
  fcmd : BitVec 32
  /-- The information word of the last fault (R17). -/
  finfo : BitVec 32
  /-- The mask table: XLEN entries, each empty or a bit position (R18). -/
  mt : List (Option Nat)
  /-- `buf[0]`, the source buffer `S` (R20). -/
  bufS : Buffer
  /-- `buf[1]`, the destination buffer `D` (R20). -/
  bufD : Buffer
  /-- The host's inputs that the JCB has not taken yet, the next first. The model's own field (log 3). -/
  inputs : List HostInput
  /-- The port's command word: the command being run (R4). The model's own field (log 3). -/
  cmd : BitVec 32
  /-- The port's data word that came with `cmd`, read by `SETX` only (R60). The model's own field (log 3). -/
  wdata : Word
  /-- The responses given so far, the first first (R240). The model's own field (log 3). -/
  responses : List Response
  deriving DecidableEq, Repr

/-- The state after reset of a build with parameters `c` (R28, R230), with nothing on the command port. -/
def State.resetWith (c : Config) : State where
  config := c
  x := { x0 := 0, x1 := 0, x2 := 0, x3 := 0 }
  crc := 0xFFFF
  lrc := 0x55
  status := { valid := false, expv := false, sync := false, esc := false, trunc := false, err := false }
  fcsexp := 0
  fcsact := 0
  fcause := 0
  fcmd := 0
  finfo := 0
  mt := List.replicate c.xlen none
  bufS := { len := 0, off := 0, bytes := [] }
  bufD := { len := 0, off := 0, bytes := [] }
  inputs := []
  cmd := 0
  wdata := 0
  responses := []

/-- The JCB right after reset (R28), in its default build (R3; log 1). -/
def State.reset : State := .resetWith .default

end Sys2Proof.Machine
end

