-- ==== Sys2Proof/Machine/Flags.lean ====
section
/-! DEFINITION. The flags of `status` (R15, R23) and the fault codes (R201). The JCB has no arithmetic condition
codes (R15): these are all the flag computations there are. -/

namespace Sys2Proof.Machine

/-- `STATUS` as `CSRR` reads it (R23): `VALID | EXPV << 1 | SYNC << 2 | ESC << 3 | TRUNC << 4 | ERR << 5`. -/
def Status.word (f : Status) : BitVec 6 :=
  .ofNat 6 (f.valid.toNat ||| f.expv.toNat <<< 1 ||| f.sync.toNat <<< 2 ||| f.esc.toNat <<< 3
    ||| f.trunc.toNat <<< 4 ||| f.err.toNat <<< 5)

/-- The flags after an `EXTDEC` that does not fault: `TRUNC` is written (R146). -/
def Status.withTrunc (f : Status) (trunc : Bool) : Status :=
  { f with trunc := trunc }

/-- The flags after a fault: `ERR` is set and no other flag changes (R203). -/
def Status.withErr (f : Status) : Status :=
  { f with err := true }

/-- The flags after an `FRMDEC`: all four frame flags are written, `TRUNC` and `ERR` are left alone (R183). -/
def Status.withFrame (f : Status) (valid expv sync esc : Bool) : Status :=
  { f with valid := valid, expv := expv, sync := sync, esc := esc }

/-- The number of a fault code (R201). -/
def FaultCode.code : FaultCode → BitVec 8
  | .illegalCommand => 1
  | .outOfRange => 2
  | .capacity => 3
  | .bitRange => 4
  | .extOverflow => 5
  | .escapeError => 6
  | .maskOverlap => 7
  | .seekRange => 8

end Sys2Proof.Machine
end

