-- ==== Sys2Proof/Machine/Operands.lean ====
section
/-! DEFINITION. Reading and writing the operands of a command: general registers (R10, R11), buffers selected
by `k` (R61), and control and status registers by number (R22 to R24). -/

namespace Sys2Proof.Machine

/-- Register `r` of a register file. -/
def Regs.get (x : Regs) : Reg → Word
  | .x0 => x.x0
  | .x1 => x.x1
  | .x2 => x.x2
  | .x3 => x.x3

/-- A register file with register `r` replaced. -/
def Regs.set (x : Regs) (r : Reg) (v : Word) : Regs :=
  match r with
  | .x0 => { x with x0 := v }
  | .x1 => { x with x1 := v }
  | .x2 => { x with x2 := v }
  | .x3 => { x with x3 := v }

/-- `x[r]` (`00_scope.md` section 6). -/
def State.reg (s : State) (r : Reg) : Word :=
  s.x.get r

/-- `x[r] <- v`: a register write writes all XLEN bits (R11). Every rule shows that `v` is below 2^XLEN; of a
wider number, which only a data word with more than XLEN bits could bring, the low XLEN bits are written
(DESIGN CHOICE, log 2). -/
def State.setReg (s : State) (r : Reg) (v : Nat) : State :=
  { s with x := s.x.set r (.ofNat 64 (v % 2 ^ s.config.xlen)) }

/-- `buf[k]`. -/
def State.buf (s : State) : BufSel → Buffer
  | .S => s.bufS
  | .D => s.bufD

/-- `buf[k] <- b`. -/
def State.setBuf (s : State) (k : BufSel) (b : Buffer) : State :=
  match k with
  | .S => { s with bufS := b }
  | .D => { s with bufD := b }

/-- The register that a CSR number names; 14 to 255 name none (R22). -/
def Csr.ofNumber (n : Nat) : Option Csr :=
  match n with
  | 0 => some .crc
  | 1 => some .lrc
  | 2 => some .status
  | 3 => some .fcsexp
  | 4 => some .fcsact
  | 5 => some .fcause
  | 6 => some .fcmd
  | 7 => some .finfo
  | 8 => some .slen
  | 9 => some .soff
  | 10 => some .dlen
  | 11 => some .doff
  | 12 => some .capr
  | 13 => some .xlenr
  | _ => none

/-- The value a CSR reads as (R22, R23), zero-extended by being a number. -/
def State.csrValue (s : State) : Csr → Nat
  | .crc => s.crc.toNat
  | .lrc => s.lrc.toNat
  | .status => s.status.word.toNat
  | .fcsexp => s.fcsexp.toNat
  | .fcsact => s.fcsact.toNat
  | .fcause => s.fcause.toNat
  | .fcmd => s.fcmd.toNat
  | .finfo => s.finfo.toNat
  | .slen => s.bufS.len
  | .soff => s.bufS.off
  | .dlen => s.bufD.len
  | .doff => s.bufD.off
  | .capr => s.config.cap
  | .xlenr => s.config.xlen

/-- A write to a CSR (R24): `CRC` and `LRC` take the low bits of the value; `none` for the read-only ones. -/
def State.writeCsr (s : State) (c : Csr) (v : Word) : Option State :=
  match c with
  | .crc => some { s with crc := v.setWidth 16 }
  | .lrc => some { s with lrc := v.setWidth 8 }
  | .status | .fcsexp | .fcsact | .fcause | .fcmd | .finfo
  | .slen | .soff | .dlen | .doff | .capr | .xlenr => none

end Sys2Proof.Machine
end

