-- ==== Sys2Proof/Machine/Ops.lean ====
section
/-! DEFINITION. The shared operations of every command: the bytes of a buffer (R40, R41), buffers (R20, R43 to
R45), the end of a command with a response (R4) or with a fault (R203), and reset (R28, R230). -/

namespace Sys2Proof.Machine

/-! ## The bytes of a buffer -/

/-- What an index of a buffer reads as when nothing has been written there: the zero that `BNEW` put there
(R50, R107). -/
def Memory.unlisted : Byte := 0

/-- The canonical form: indices strictly rising, and no entry equal to what an unlisted index reads as. -/
abbrev Memory.wf (m : Memory) : Prop :=
  m.Pairwise (fun c d => c.1 < d.1) ∧ ∀ c ∈ m, c.2 ≠ Memory.unlisted

/-- The byte at an index. -/
def Memory.read : Memory → Nat → Byte
  | [], _ => Memory.unlisted
  | (i, b) :: m, a => if i = a then b else Memory.read m a

/-- One entry put in front of memory, left out where it is what an unlisted index reads as. -/
def Memory.cons (a : Nat) (b : Byte) (m : Memory) : Memory :=
  if b = Memory.unlisted then m else (a, b) :: m

/-- The bytes with the byte at index `a` replaced, in canonical form. -/
def Memory.write : Memory → Nat → Byte → Memory
  | [], a, v => Memory.cons a v []
  | (i, b) :: m, a, v =>
    if a < i then Memory.cons a v ((i, b) :: m)
    else if i = a then Memory.cons a v m
    else (i, b) :: Memory.write m a v

/-- `MemRead`: the `n` bytes from index `a` on (R41). -/
def Memory.readBytes (m : Memory) : Nat → Nat → List Byte
  | _, 0 => []
  | a, n + 1 => m.read a :: Memory.readBytes m (a + 1) n

/-- `MemWrite`: the bytes `s` written from index `a` on (R41). -/
def Memory.writeBytes : Memory → Nat → List Byte → Memory
  | m, _, [] => m
  | m, a, b :: s => Memory.writeBytes (m.write a b) (a + 1) s

/-- The memory that holds exactly the byte sequence `s` from index `a` on. -/
def Memory.ofBytes : Nat → List Byte → Memory
  | _, [] => []
  | a, b :: s => Memory.cons a b (Memory.ofBytes (a + 1) s)

/-! ## Buffers -/

/-- A new buffer of `n` zero bytes with the cursor at 0 (R107). -/
def Buffer.zeros (n : Nat) : Buffer where
  len := n
  off := 0
  bytes := []

/-- The buffer that holds exactly the byte sequence `s`, with the cursor at its end (R45). -/
def Buffer.ofBytes (s : List Byte) : Buffer where
  len := s.length
  off := s.length
  bytes := Memory.ofBytes 0 s

/-- The whole byte sequence of a buffer. -/
def Buffer.contents (b : Buffer) : List Byte :=
  b.bytes.readBytes 0 b.len

/-- `span(k)`: the bytes before the cursor (R44). -/
def Buffer.span (b : Buffer) : List Byte :=
  b.bytes.readBytes 0 b.off

/-- A buffer with the bytes `s` written at the cursor and the cursor moved past them (R43). -/
def Buffer.put (b : Buffer) (s : List Byte) : Buffer :=
  { b with bytes := b.bytes.writeBytes b.off s, off := b.off + s.length }

/-! ## The end of a command -/

/-- What a step answers. -/
abbrev Result := Host.Outcome State Fault Refusal

/-- The state `s` with the response of a command that completed (R4). -/
def State.answered (s : State) (rdata : Word) : State :=
  { s with responses := s.responses ++ [{ rdata := rdata, fault := 0 }] }

/-- The state after `raise f(info)` in state `s` (R203): the fault record, the sticky `ERR` and the response are
written and nothing else changes. -/
def State.faulted (s : State) (f : FaultCode) (info : Nat) : State :=
  { s with
    fcause := f.code
    fcmd := s.cmd
    finfo := .ofNat 32 info
    status := s.status.withErr
    responses := s.responses ++ [{ rdata := 0, fault := f.code }] }

/-- End a command with read data (R4). -/
def answer (rdata : Word) (s : State) : Result :=
  .next (s.answered rdata)

/-- `raise f(info)`: the one way a command ends in a fault (R203). It is the JCB's whole exception entry; there
is no handler to go to and nothing to return from (R200, R206). -/
def raise (f : FaultCode) (info : Nat) (s : State) : Result :=
  .next (s.faulted f info)

/-- The body of a command: the state it leaves, or the fault it raises with its information word. -/
abbrev Effect := Except (FaultCode × Nat) State

/-- Run the body of a command issued in state `s`. A body that raises a fault leaves `s` as it was but for the
fault record (R5, R203); any other answers `(0, 0)`. -/
def finish (s : State) : Effect → Result
  | .ok t => answer 0 t
  | .error (f, info) => raise f info s

/-! ## Buffer accesses -/

/-- The fault of an access of `n` bytes that would pass the end of buffer `b` (R41). -/
def outOfRange (b : Buffer) (n : Nat) : FaultCode × Nat :=
  (.outOfRange, n <<< 16 ||| b.off)

/-- Write the bytes `s` at the cursor of buffer `k`, or raise `OutOfRange` (R41, R43). -/
def putBytes (k : BufSel) (bytes : List Byte) (s : State) : Effect :=
  if (s.buf k).off + bytes.length > (s.buf k).len then
    .error (outOfRange (s.buf k) bytes.length)
  else
    .ok (s.setBuf k ((s.buf k).put bytes))

/-- `SetD(bytes)`: replace the destination buffer, or raise `Capacity` (R45). -/
def replaceD (bytes : List Byte) (s : State) : Effect :=
  if bytes.length > s.config.cap then
    .error (.capacity, bytes.length)
  else
    .ok { s with bufD := Buffer.ofBytes bytes }

/-! ## Reset -/

/-- Every element of state at its reset value (R28, R101, R230). The parameters stay (R231), and the command
port is no element of state: what the host has issued and what it has been answered stay as they are
(DEDUCED, log 6). -/
def State.toReset (s : State) : State :=
  { State.resetWith s.config with
    inputs := s.inputs
    cmd := s.cmd
    wdata := s.wdata
    responses := s.responses }

end Sys2Proof.Machine
end

