-- ==== Sys2Proof/Machine/BitField.lean ====
section
/-! DEFINITION. The bit-field unit (`41_bitfield.md`): its functions on non-negative integers (R120 to R124) and
its commands (R127 to R133). -/

namespace Sys2Proof.Machine

/-! ## The functions -/

/-- `extractBits(value, cnt, start)` (R120). -/
def extractBits (value cnt start : Nat) : Nat :=
  (value >>> start) &&& ((1 <<< cnt) - 1)

/-- `value & ~m`, with `~` on any width that covers both (R121). -/
def clearBits (value m : Nat) : Nat :=
  value ^^^ (value &&& m)

/-- `fillBits(value, cnt, start, new)` (R121). -/
def fillBits (value cnt start new : Nat) : Nat :=
  let mask := (1 <<< cnt) - 1
  clearBits value (mask <<< start) ||| ((new &&& mask) <<< start)

/-- The loop of `fromFlagSet` from entry `i` on, with what it has accumulated (R123). -/
def fromFlagSetFrom (flags : Nat) : List (Option Nat) → Nat → Nat → Nat
  | [], _, acc => acc
  | none :: mt, i, acc => fromFlagSetFrom flags mt (i + 1) acc
  | some p :: mt, i, acc =>
    fromFlagSetFrom flags mt (i + 1) (if flags.testBit i then acc ||| 1 <<< p else acc)

/-- `fromFlagSet(mt, flags)` (R123). -/
def fromFlagSet (mt : List (Option Nat)) (flags : Nat) : Nat :=
  fromFlagSetFrom flags mt 0 0

/-- The loop of `toFlagSet` from entry `i` on, with what it has accumulated (R124). -/
def toFlagSetFrom (value : Nat) : List (Option Nat) → Nat → Nat → Nat
  | [], _, out => out
  | none :: mt, i, out => toFlagSetFrom value mt (i + 1) out
  | some p :: mt, i, out =>
    toFlagSetFrom value mt (i + 1) (if value.testBit p then out ||| 1 <<< i else out)

/-- `toFlagSet(mt, value)` (R124). -/
def toFlagSet (mt : List (Option Nat)) (value : Nat) : Nat :=
  toFlagSetFrom value mt 0 0

/-- Some entry other than `idx` holds position `pos` (R131), looking at entry `i` and the ones after it. -/
def heldElsewhere (idx pos : Nat) : List (Option Nat) → Nat → Bool
  | [], _ => false
  | e :: mt, i => (e == some pos && i != idx) || heldElsewhere idx pos mt (i + 1)

/-! ## The commands -/

/-- The information word of a `BitRange` or `MaskOverlap` fault: `cnt << 8 | start` (R201). -/
def rangeInfo (cnt start : BitVec 7) : Nat :=
  cnt.toNat <<< 8 ||| start.toNat

/-- `BFEXT rd, rs1, cnt, start` (R127). -/
def execBfext (rd rs1 : Reg) (cnt start : BitVec 7) (s : State) : Result :=
  finish s <|
    if cnt.toNat + start.toNat > s.config.xlen then .error (.bitRange, rangeInfo cnt start)
    else .ok (s.setReg rd (extractBits (s.reg rs1).toNat cnt.toNat start.toNat))

/-- `BFFILL rd, rs1, rs2, cnt, start` (R128). -/
def execBffill (rd rs1 rs2 : Reg) (cnt start : BitVec 7) (s : State) : Result :=
  finish s <|
    if cnt.toNat + start.toNat > s.config.xlen then .error (.bitRange, rangeInfo cnt start)
    else .ok (s.setReg rd (fillBits (s.reg rs1).toNat cnt.toNat start.toNat (s.reg rs2).toNat))

/-- `MTCLR` (R130). -/
def execMtclr (s : State) : Result :=
  finish s (.ok { s with mt := List.replicate s.config.xlen none })

/-- `MTSET idx, pos` (R131): `BitRange` is tested before `MaskOverlap` (R205). -/
def execMtset (idx pos : BitVec 7) (s : State) : Result :=
  finish s <|
    if idx.toNat ≥ s.config.xlen ∨ pos.toNat ≥ s.config.xlen then .error (.bitRange, rangeInfo idx pos)
    else if heldElsewhere idx.toNat pos.toNat s.mt 0 then .error (.maskOverlap, rangeInfo idx pos)
    else .ok { s with mt := s.mt.set idx.toNat (some pos.toNat) }

/-- `FLPACK rd, rs1` (R132). -/
def execFlpack (rd rs1 : Reg) (s : State) : Result :=
  finish s (.ok (s.setReg rd (fromFlagSet s.mt (s.reg rs1).toNat)))

/-- `FLUNPK rd, rs1` (R133). -/
def execFlunpk (rd rs1 : Reg) (s : State) : Result :=
  finish s (.ok (s.setReg rd (toFlagSet s.mt (s.reg rs1).toNat)))

end Sys2Proof.Machine
end

