-- ==== Sys2Proof/Machine/ByteBuffer.lean ====
section
/-! DEFINITION. The buffer commands (`40_system_buffer.md` section 2). The addressing mode of every access is one:
at the cursor, then advance (R43). -/

namespace Sys2Proof.Machine

/-- `BNEW k, n` (R107). -/
def execBnew (k : BufSel) (n : BitVec 16) (s : State) : Result :=
  finish s <|
    if n.toNat > s.config.cap then .error (.capacity, n.toNat)
    else .ok (s.setBuf k (Buffer.zeros n.toNat))

/-- `BPUT k, b` (R108). -/
def execBput (k : BufSel) (b : Byte) (s : State) : Result :=
  finish s (putBytes k [b] s)

/-- `BPUTX rs, k` (R109): the low byte of the register; its upper bits are ignored. -/
def execBputx (rs : Reg) (k : BufSel) (s : State) : Result :=
  finish s (putBytes k [(s.reg rs).setWidth 8] s)

/-- `BGET rd, k` (R110): the byte is zero-extended. -/
def execBget (rd : Reg) (k : BufSel) (s : State) : Result :=
  finish s <|
    if (s.buf k).off + 1 > (s.buf k).len then .error (outOfRange (s.buf k) 1)
    else
      .ok ((s.setReg rd ((s.buf k).bytes.read (s.buf k).off).toNat).setBuf k
        { s.buf k with off := (s.buf k).off + 1 })

/-- `BSEEK k, pos` (R111). -/
def execBseek (k : BufSel) (pos : BitVec 16) (s : State) : Result :=
  finish s <|
    if pos.toNat > (s.buf k).len then .error (.seekRange, pos.toNat)
    else .ok (s.setBuf k { s.buf k with off := pos.toNat })

/-- `BSWAP` (R112). -/
def execBswap (s : State) : Result :=
  finish s (.ok { s with bufS := s.bufD, bufD := s.bufS })

end Sys2Proof.Machine
end

