-- ==== Sys2Proof/Machine/Extended.lean ====
section
/-! DEFINITION. The extended-value unit (`42_extended.md`): the continuation-bit encoder and decoder (R70, R140,
R141) and its commands (R145, R146). -/

namespace Sys2Proof.Machine

/-! ## The functions -/

/-- The bytes the loop of `encodeExtended` emits for `v`, the continuation flag set on every one (R140). The
first argument bounds the number of rounds. -/
def emitGroups : Nat → Nat → List Byte
  | 0, _ => []
  | n + 1, v => if v = 0 then [] else .ofNat 8 (0x80 ||| (v &&& 0x7F)) :: emitGroups n (v >>> 7)

/-- A chain with the continuation flag of its last byte cleared (R140). -/
def clearLastFlag : List Byte → List Byte
  | [] => []
  | [b] => [b &&& 0x7F]
  | b :: c :: s => b :: clearLastFlag (c :: s)

/-- `encodeExtended(v)` (R140). A value has at most as many 7-bit groups as bits. -/
def encodeExtended (v : Nat) : List Byte :=
  if v = 0 then [0x00] else clearLastFlag (emitGroups (v.log2 + 1) v)

/-- What `decodeExtended` returns: the value, the index after the last byte read, and the truncation mark. -/
structure DecodedValue where
  value : Nat
  next : Nat
  trunc : Bool
  deriving DecidableEq, Repr

/-- The loop of `decodeExtended` (R141) over the bytes that are left, with its index `o`, its `position` and the
value `v` accumulated. Exhaustion is tested before each read (C3). -/
def decodeGroups : List Byte → (o position v : Nat) → DecodedValue
  | [], o, _, v => { value := v, next := o, trunc := true }
  | b :: s, o, position, v =>
    let v' := v + ((b.toNat &&& 0x7F) <<< (7 * position))
    if b.toNat &&& 0x80 = 0 then { value := v', next := o + 1, trunc := false }
    else decodeGroups s (o + 1) (position + 1) v'

/-- `decodeExtended(s, o)` (R141). -/
def decodeExtended (s : List Byte) (o : Nat) : DecodedValue :=
  decodeGroups (s.drop o) o 0 0

/-! ## The commands -/

/-- `EXTENC rs` (R145): one bounds check for the whole chain. -/
def execExtenc (rs : Reg) (s : State) : Result :=
  finish s (putBytes .D (encodeExtended (s.reg rs).toNat) s)

/-- `EXTDEC rd` (R146): reads from the cursor of `S` to `len`, not only the span. -/
def execExtdec (rd : Reg) (s : State) : Result :=
  let d := decodeExtended s.bufS.contents s.bufS.off
  finish s <|
    if d.value ≥ 2 ^ s.config.xlen then .error (.extOverflow, 0)
    else
      .ok { s.setReg rd d.value with
        bufS := { s.bufS with off := d.next }
        status := s.status.withTrunc d.trunc }

end Sys2Proof.Machine
end

