-- ==== Sys2Proof/Machine/Frame.lean ====
section
/-! DEFINITION. The byte-stuffing framer (`44_frame.md`): its constants and functions (R170 to R174) and its
commands (R180 to R183). -/

namespace Sys2Proof.Machine

/-! ## Constants and the stuffing table -/

/-- The start and stop marker (R170). -/
def marker : Byte := 0x7E

/-- The escape byte (R170). -/
def escapeByte : Byte := 0x7D

/-- The stuffing table `T` (R170): the substitute of a reserved byte, `none` for any other byte. -/
def substitute (b : Byte) : Option Byte :=
  if b = 0x7E then some 0x5E
  else if b = 0x7D then some 0x5D
  else if b = 0x11 then some 0x31
  else if b = 0x13 then some 0x33
  else none

/-- The inverse table `U` (R170). -/
def restore (b : Byte) : Option Byte :=
  if b = 0x5E then some 0x7E
  else if b = 0x5D then some 0x7D
  else if b = 0x31 then some 0x11
  else if b = 0x33 then some 0x13
  else none

/-! ## The functions -/

/-- The wire form of one byte (R170, R171). -/
def stuffByte (b : Byte) : List Byte :=
  match substitute b with
  | some t => [escapeByte, t]
  | none => [b]

/-- `stuff(s)` (R171). -/
def stuff (s : List Byte) : List Byte :=
  s.flatMap stuffByte

/-- The loop of `unstuff` (R172); the first argument is `esc`, "was the previous byte the escape byte". `none`
is the mark `EscapeError`. -/
def unstuffFrom : Bool → List Byte → Option (List Byte)
  | false, [] => some []
  | true, [] => none
  | true, b :: s =>
    match restore b with
    | some r => (unstuffFrom false s).map (r :: ·)
    | none => none
  | false, b :: s =>
    if b = escapeByte then unstuffFrom true s else (unstuffFrom false s).map (b :: ·)

/-- `unstuff(s)` (R172). -/
def unstuff (s : List Byte) : Option (List Byte) :=
  unstuffFrom false s

/-- The two FCS bytes of a checksum, low byte first (R46, R173; C1). -/
def fcsBytes (f : BitVec 16) : List Byte :=
  [f.extractLsb' 0 8, f.extractLsb' 8 8]

/-- The checksum that two FCS bytes carry, low byte first (R174). -/
def fcsValue (low high : Byte) : BitVec 16 :=
  low.setWidth 16 ||| (high.setWidth 16 <<< 8)

/-- `toFrame(c)` (R173). -/
def toFrame (c : List Byte) : List Byte :=
  if c.length = 0 then []
  else [marker] ++ stuff (c ++ fcsBytes (crc16 c)) ++ [marker]

/-- What `fromBytes` returns (R174). -/
structure FrameResult where
  content : List Byte
  expv : Bool
  exp : BitVec 16
  act : BitVec 16
  valid : Bool
  sync : Bool
  esc : Bool
  deriving DecidableEq, Repr

/-- The closed result of R174, with the flag that says why. -/
def FrameResult.closed (sync esc : Bool) : FrameResult where
  content := []
  expv := false
  exp := 0
  act := 0
  valid := false
  sync := sync
  esc := esc

/-- Split an unstuffed interior into content and FCS and compare (R174). -/
def checkInterior (u : List Byte) : FrameResult :=
  if u.length < 2 then .closed true false
  else
    let content := u.take (u.length - 2)
    let exp := fcsValue (u.getD (u.length - 2) 0) (u.getD (u.length - 1) 0)
    let act := crc16 content
    { content := content, expv := true, exp := exp, act := act, valid := exp == act, sync := false, esc := false }

/-- `fromBytes(w)` (R174). -/
def fromBytes (w : List Byte) : FrameResult :=
  if w.length < 2 ∨ w[0]? ≠ some marker ∨ w[w.length - 1]? ≠ some marker then .closed true false
  else
    match unstuff ((w.take (w.length - 1)).drop 1) with
    | none => .closed false true
    | some u => checkInterior u

/-! ## The commands -/

/-- `STUFF` (R180). -/
def execStuff (s : State) : Result :=
  finish s (replaceD (stuff s.bufS.span) s)

/-- `UNSTUFF` (R181). -/
def execUnstuff (s : State) : Result :=
  finish s <|
    match unstuff s.bufS.span with
    | none => .error (.escapeError, 0)
    | some u => replaceD u s

/-- `FRMENC` (R182). -/
def execFrmenc (s : State) : Result :=
  finish s (replaceD (toFrame s.bufS.span) s)

/-- The registers and flags that a frame decode leaves (R183). -/
def State.withFrameResult (s : State) (r : FrameResult) : State :=
  { s with
    fcsexp := r.exp
    fcsact := r.act
    status := s.status.withFrame r.valid r.expv r.sync r.esc }

/-- `FRMDEC` (R183). -/
def execFrmdec (s : State) : Result :=
  let r := fromBytes s.bufS.span
  finish s ((replaceD r.content s).map fun t => t.withFrameResult r)

end Sys2Proof.Machine
end

