-- ==== Sys2Proof/Machine/System.lean ====
section
/-! DEFINITION. The system commands (`40_system_buffer.md` section 1). -/

namespace Sys2Proof.Machine

/-- `NOP` (R100). -/
def execNop (s : State) : Result :=
  finish s (.ok s)

/-- `RST` (R101). -/
def execRst (s : State) : Result :=
  finish s (.ok s.toReset)

/-- `SETX rd, v` (R102). -/
def execSetx (rd : Reg) (s : State) : Result :=
  finish s (.ok (s.setReg rd s.wdata.toNat))

/-- `GETX rs` (R103). -/
def execGetx (rs : Reg) (s : State) : Result :=
  answer (s.reg rs) s

/-- `CSRR rd, csr` (R104). -/
def execCsrr (rd : Reg) (csr : Byte) (s : State) : Result :=
  finish s <|
    match Csr.ofNumber csr.toNat with
    | some c => .ok (s.setReg rd (s.csrValue c))
    | none => .error (.illegalCommand, 0)

/-- `CSRW rs, csr` (R105). -/
def execCsrw (rs : Reg) (csr : Byte) (s : State) : Result :=
  finish s <|
    match (Csr.ofNumber csr.toNat).bind fun c => s.writeCsr c (s.reg rs) with
    | some t => .ok t
    | none => .error (.illegalCommand, 0)

end Sys2Proof.Machine
end

