-- ==== Sys2Proof/Machine/Dispatch.lean ====
section
/-! DEFINITION. The dispatch: the meaning of each command of the operation-code map (R64). -/

namespace Sys2Proof.Machine

/-- Run a command in a state whose port holds its words (R4). -/
def exec (i : Instr) (s : State) : Host.Outcome State Fault Refusal :=
  match i with
  -- system commands
  | .nop => Sys2Proof.Machine.execNop s
  | .rst => Sys2Proof.Machine.execRst s
  | .setx rd => Sys2Proof.Machine.execSetx rd s
  | .getx rs => Sys2Proof.Machine.execGetx rs s
  | .csrr rd csr => Sys2Proof.Machine.execCsrr rd csr s
  | .csrw rs csr => Sys2Proof.Machine.execCsrw rs csr s
  -- buffer commands
  | .bnew k n => Sys2Proof.Machine.execBnew k n s
  | .bput k b => Sys2Proof.Machine.execBput k b s
  | .bget rd k => Sys2Proof.Machine.execBget rd k s
  | .bseek k pos => Sys2Proof.Machine.execBseek k pos s
  | .bswap => Sys2Proof.Machine.execBswap s
  | .bputx rs k => Sys2Proof.Machine.execBputx rs k s
  -- bit-field unit
  | .bfext rd rs1 cnt start => Sys2Proof.Machine.execBfext rd rs1 cnt start s
  | .bffill rd rs1 rs2 cnt start => Sys2Proof.Machine.execBffill rd rs1 rs2 cnt start s
  | .mtclr => Sys2Proof.Machine.execMtclr s
  | .mtset idx pos => Sys2Proof.Machine.execMtset idx pos s
  | .flpack rd rs1 => Sys2Proof.Machine.execFlpack rd rs1 s
  | .flunpk rd rs1 => Sys2Proof.Machine.execFlunpk rd rs1 s
  -- extended-value unit
  | .extenc rs => Sys2Proof.Machine.execExtenc rs s
  | .extdec rd => Sys2Proof.Machine.execExtdec rd s
  -- checksum units
  | .crcinit => Sys2Proof.Machine.execCrcinit s
  | .crcupd b => Sys2Proof.Machine.execCrcupd b s
  | .crcbuf => Sys2Proof.Machine.execCrcbuf s
  | .crcget rd => Sys2Proof.Machine.execCrcget rd s
  | .lrcinit => Sys2Proof.Machine.execLrcinit s
  | .lrcseed b => Sys2Proof.Machine.execLrcseed b s
  | .lrcupd b => Sys2Proof.Machine.execLrcupd b s
  | .lrcbuf => Sys2Proof.Machine.execLrcbuf s
  | .lrcget rd => Sys2Proof.Machine.execLrcget rd s
  -- framer
  | .stuff => Sys2Proof.Machine.execStuff s
  | .unstuff => Sys2Proof.Machine.execUnstuff s
  | .frmenc => Sys2Proof.Machine.execFrmenc s
  | .frmdec => Sys2Proof.Machine.execFrmdec s

end Sys2Proof.Machine
end

