-- ==== Sys2Proof/Machine/Port.lean ====
section
/-! DEFINITION. The command port (R4, R60, R240): taking the host's next command, and running it or raising
`IllegalCommand`. -/

namespace Sys2Proof.Machine

/-- The state in which the command `(cmd, wdata)` has been taken from the port, `rest` being what the host has
still to issue. -/
def State.accept (s : State) (cmd : BitVec 32) (wdata : Word) (rest : List HostInput) : State :=
  { s with inputs := rest, cmd := cmd, wdata := wdata }

/-- Run the command on the port: the command its word stands for, or `IllegalCommand` for a word that stands for
none (R64, R65), which is checked before any operand or state is looked at (R205). -/
def runCommand (s : State) : Result :=
  match decode s.cmd with
  | .ok i => exec i s
  | .error _ => raise .illegalCommand 0 s

/-- The host's reset event (R230), `rest` being what the host does next. -/
def State.acceptReset (s : State) (rest : List HostInput) : State :=
  { s.toReset with inputs := rest }

/-- The JCB's answer to what the host does next. With nothing issued its state does not change (R4, R210; DEDUCED,
log 4). -/
def takeInput (s : State) : Result :=
  match s.inputs with
  | [] => .next s
  | .reset :: rest => .next (s.acceptReset rest)
  | .command cmd wdata :: rest => runCommand (s.accept cmd wdata rest)

end Sys2Proof.Machine
end

