-- ==== Sys2Proof/Machine/Step.lean ====
section
/-! DEFINITION. One step of the machine, and the placing of a command where the next step takes it. -/

namespace Sys2Proof.Machine

/-- One step: the JCB takes what the host does next and runs it to completion (R4, R5). -/
def step (s : State) : Host.Outcome State Fault Refusal :=
  takeInput s

/-- The state in which the host's next input is the command word of `nbits` bits `w`, with the data word 0 (log 5). -/
def State.withFetchWord (s : State) (nbits w : Nat) : State :=
  { s with inputs := .command (tableWord nbits w) 0 :: s.inputs }

end Sys2Proof.Machine
end

