-- ==== Sys2Proof/Safety.lean ====
section
/-! DEFINITION. The terms claims use: the invariant of every reachable state, what "unchanged" means for each part
of the state, and how a command ends (with a response, or with a fault). -/

namespace Sys2Proof.Machine

/-! ## The invariant -/

/-- Every general register is an XLEN-bit value (R10). -/
abbrev RegsInRange (s : State) : Prop :=
  s.x.x0.toNat < 2 ^ s.config.xlen ∧ s.x.x1.toNat < 2 ^ s.config.xlen ∧
    s.x.x2.toNat < 2 ^ s.config.xlen ∧ s.x.x3.toNat < 2 ^ s.config.xlen

/-- The mask table has XLEN entries, each empty or a position below XLEN (R18), and no two entries hold the same
position (R19). -/
abbrev MaskTableOk (s : State) : Prop :=
  s.mt.length = s.config.xlen ∧ (∀ p ∈ s.mt.filterMap id, p < s.config.xlen) ∧ (s.mt.filterMap id).Nodup

/-- `0 <= off <= len <= CAP`, and the bytes are a canonical memory with nothing at or past `len` (R20, R21). -/
abbrev BufferOk (cap : Nat) (b : Buffer) : Prop :=
  b.off ≤ b.len ∧ b.len ≤ cap ∧ b.bytes.wf ∧ ∀ c ∈ b.bytes, c.1 < b.len

/-- The four frame flags and the two checksum registers agree with each other (R15, R16, R175 (c)): a frame that
got to its FCS is valid exactly when the checksums agree and did not fail closed; any other leaves both registers
0 and is not valid, and `SYNC` and `ESC` are never set together. -/
abbrev FrameRegsOk (s : State) : Prop :=
  (s.status.expv = true →
    s.status.sync = false ∧ s.status.esc = false ∧ s.status.valid = (s.fcsexp == s.fcsact)) ∧
  (s.status.expv = false → s.fcsexp = 0 ∧ s.fcsact = 0 ∧ s.status.valid = false) ∧
  (s.status.sync && s.status.esc) = false

/-- The fault record and `ERR` agree (R15, R17, R201): `fcause` is a code 0..8, it is 0 exactly while `ERR` is 0,
and the whole record is 0 until the first fault. -/
abbrev FaultRecordOk (s : State) : Prop :=
  s.fcause.toNat ≤ 8 ∧ (s.status.err = false ↔ s.fcause = 0) ∧
    (s.status.err = false → s.fcmd = 0 ∧ s.finfo = 0)

/-- The invariant of every reachable state (R3, R10, R15 to R21). -/
structure Inv (s : State) : Prop where
  config : s.config.Legal
  regs : RegsInRange s
  masks : MaskTableOk s
  bufS : BufferOk s.config.cap s.bufS
  bufD : BufferOk s.config.cap s.bufD
  frame : FrameRegsOk s
  record : FaultRecordOk s

/-! ## What stays as it was -/

/-- Every general register is as it was. -/
abbrev SameRegs (s t : State) : Prop := ∀ r : Reg, t.reg r = s.reg r

/-- Every general register but `rd` is as it was. -/
abbrev SameRegsBut (rd : Reg) (s t : State) : Prop := ∀ r : Reg, r ≠ rd → t.reg r = s.reg r

/-- Both checksum accumulators are as they were. -/
abbrev SameSums (s t : State) : Prop := t.crc = s.crc ∧ t.lrc = s.lrc

/-- The frame-check result registers are as they were. -/
abbrev SameFcs (s t : State) : Prop := t.fcsexp = s.fcsexp ∧ t.fcsact = s.fcsact

/-- The fault record is as it was. -/
abbrev SameRecord (s t : State) : Prop := t.fcause = s.fcause ∧ t.fcmd = s.fcmd ∧ t.finfo = s.finfo

/-- Buffer `k` is as it was: its length, its cursor, and every byte as read. -/
abbrev SameBuf (k : BufSel) (s t : State) : Prop :=
  (t.buf k).len = (s.buf k).len ∧ (t.buf k).off = (s.buf k).off ∧
    ∀ a : Nat, (t.buf k).bytes.read a = (s.buf k).bytes.read a

/-- Both buffers are as they were. -/
abbrev SameBufs (s t : State) : Prop := SameBuf .S s t ∧ SameBuf .D s t

/-- The parameters, the words on the port and what the host has still to issue are as they were. -/
abbrev SamePort (s t : State) : Prop :=
  t.config = s.config ∧ t.inputs = s.inputs ∧ t.cmd = s.cmd ∧ t.wdata = s.wdata

/-- All that a command which only writes a general register or a buffer leaves alone: checksums, flags, frame
results, fault record, mask table and port. -/
abbrev SameRest (s t : State) : Prop :=
  SameSums s t ∧ t.status = s.status ∧ SameFcs s t ∧ SameRecord s t ∧ t.mt = s.mt ∧ SamePort s t

/-! ## How a command ends -/

/-- The command completed with the response `(rdata, 0)` (R4). -/
abbrev Answers (rdata : Word) (s t : State) : Prop :=
  t.responses = s.responses ++ [{ rdata := rdata, fault := 0 }]

/-- The command ended in the fault `f` with information word `info`, and changed nothing but what R203 lists. -/
abbrev FaultedAs (f : FaultCode) (info : Nat) (s t : State) : Prop :=
  t.fcause = f.code ∧ t.fcmd = s.cmd ∧ t.finfo = BitVec.ofNat 32 info ∧
    t.status = { s.status with err := true } ∧
    t.responses = s.responses ++ [{ rdata := 0, fault := f.code }] ∧
    SameRegs s t ∧ SameSums s t ∧ SameFcs s t ∧ t.mt = s.mt ∧ SameBufs s t ∧ SamePort s t

/-! ## Runs -/

/-- A run has recorded a fault exactly when `ERR` is set at its end, given that it started with `ERR` clear (R240). -/
abbrev RecordedFault (s : State) : Prop := s.status.err = true

end Sys2Proof.Machine
end

