-- ==== Sys2Proof/WellFormed.lean ====
section
/-! DEFINITION. Which commands have a legal command word: the operand check of R65 (c). Every other operand of
a command is held in a type of exactly its field's width (R61), so every value of it is legal (R63). -/

namespace Sys2Proof

/-- R65 (c): a command word is illegal when it is `CSRR` with `csr > 13`, or `CSRW` with a `csr` other than 0
and 1. A well-formed command is one whose word is legal. -/
def Instr.wellFormed : Instr → Bool
  | .csrr _ csr => csr.toNat ≤ 13
  | .csrw _ csr => csr.toNat ≤ 1
  | .nop | .rst | .setx _ | .getx _ | .bnew _ _ | .bput _ _ | .bget _ _ | .bseek _ _ | .bswap
  | .bputx _ _ | .bfext _ _ _ _ | .bffill _ _ _ _ _ | .mtclr | .mtset _ _ | .flpack _ _ | .flunpk _ _
  | .extenc _ | .extdec _ | .crcinit | .crcupd _ | .crcbuf | .crcget _ | .lrcinit | .lrcseed _
  | .lrcupd _ | .lrcbuf | .lrcget _ | .stuff | .unstuff | .frmenc | .frmdec => true

end Sys2Proof
end

