-- ==== Sys2Proof/Certificates/Slice0/Obligations.lean ====
section
/-! DEFINITION. The statements about the JCB for the provers, each citing the rule of spec/ it formalises. -/

open Sys2Proof Sys2Proof.Machine

/-! ## Reset -/

/-- R28: every element of state after reset, in the default build (the parameters are log 1). -/
def Obligations.ResetStateHasTheResetValues : Prop :=
  (∀ r : Reg, State.reset.reg r = 0) ∧ State.reset.crc = 0xFFFF ∧ State.reset.lrc = 0x55 ∧
  (State.reset.status.valid = false ∧ State.reset.status.expv = false ∧ State.reset.status.sync = false ∧
    State.reset.status.esc = false ∧ State.reset.status.trunc = false ∧ State.reset.status.err = false) ∧
  State.reset.fcsexp = 0 ∧ State.reset.fcsact = 0 ∧
  State.reset.fcause = 0 ∧ State.reset.fcmd = 0 ∧ State.reset.finfo = 0 ∧
  (∀ e ∈ State.reset.mt, e = none) ∧
  (∀ k : BufSel, (State.reset.buf k).len = 0 ∧ (State.reset.buf k).off = 0 ∧ (State.reset.buf k).bytes = [])

/-- R101 and R28: `RST` puts every element of state at its reset value and answers `(0, 0)`. -/
def Obligations.RstRestoresEveryResetValue : Prop :=
  encode .rst = 0x01000000#32 ∧
  ∀ s : State, ∃ t, exec .rst s = .next t ∧
    (∀ r : Reg, t.reg r = 0) ∧ t.crc = 0xFFFF ∧ t.lrc = 0x55 ∧
    t.status = ⟨false, false, false, false, false, false⟩ ∧
    t.fcsexp = 0 ∧ t.fcsact = 0 ∧ t.fcause = 0 ∧ t.fcmd = 0 ∧ t.finfo = 0 ∧
    (t.mt.length = s.config.xlen ∧ ∀ e ∈ t.mt, e = none) ∧
    (∀ k : BufSel, (t.buf k).len = 0 ∧ (t.buf k).off = 0 ∧ (t.buf k).bytes = []) ∧
    SamePort s t ∧ Answers 0 s t

/-- R230: the host's reset event leaves exactly the state that `RST` leaves, and gives no response (log 6). -/
def Obligations.ResetEventLeavesWhatRstLeaves : Prop :=
  ∀ (s : State) (rest : List HostInput), s.inputs = .reset :: rest →
    ∃ t u, step s = .next t ∧ exec .rst s = .next u ∧
      t = { u with inputs := rest, responses := s.responses }

/-! ## The step -/

/-- R4 and R64: when the host's next command word decodes to a command, the step runs that command, with the
command's words on the port and the rest of the host's inputs left for later (the port's fields are the model's,
log 3). -/
def Obligations.StepRunsTheDecodedCommand : Prop :=
  ∀ (s : State) (w : BitVec 32) (d : Word) (rest : List HostInput) (i : Instr),
    s.inputs = .command w d :: rest → decode w = .ok i →
      step s = exec i { s with inputs := rest, cmd := w, wdata := d }

/-- R65 and R203: a word that decodes to no command raises `IllegalCommand`, whatever the state, and records itself
(the port's fields are the model's, log 3). -/
def Obligations.StepFaultsOnAnIllegalWord : Prop :=
  ∀ (s : State) (w : BitVec 32) (d : Word) (rest : List HostInput) (e : DecodeError),
    s.inputs = .command w d :: rest → decode w = .error e →
      ∃ t, step s = .next t ∧ t.fcmd = w ∧
        FaultedAs .illegalCommand 0 { s with inputs := rest, cmd := w, wdata := d } t

/-- R4 and R240: the machine never stops: every step of every state answers a next state, whatever the host issues; and
with nothing issued the state does not change (log 4). -/
def Obligations.EveryStepAnswersANextState : Prop :=
  ∀ s : State, ∃ t, step s = .next t ∧ (s.inputs = [] → t = s)

/-- R239 and R240: a run of any finite list of commands takes one step each, ends, and gives one response each,
after the responses given before (the lists of inputs and responses are the model's, log 3). -/
def Obligations.EveryRunEndsWithOneResponsePerCommand : Prop :=
  ∀ (p : List (BitVec 32 × Word)) (s : State),
    s.inputs = p.map (fun c => HostInput.command c.1 c.2) →
      ∃ t answers, Host.Core.run Sys2Proof.core p.length s = .next t ∧ t.inputs = [] ∧
        t.responses = s.responses ++ answers ∧ answers.length = p.length

/-- R204, R206 and R240: a run without `RST` that starts with `ERR` clear ends with `ERR` set exactly when one of its
commands was answered with a fault code (the lists of inputs and responses are the model's, log 3). -/
def Obligations.RunSetsErrExactlyWhenACommandFaulted : Prop :=
  ∀ (p : List (BitVec 32 × Word)) (s t : State),
    s.inputs = p.map (fun c => HostInput.command c.1 c.2) → (∀ c ∈ p, decode c.1 ≠ .ok .rst) →
    ¬RecordedFault s → Host.Core.run Sys2Proof.core p.length s = .next t →
      (RecordedFault t ↔ ∃ a ∈ t.responses.drop s.responses.length, a.fault ≠ 0)

/-! ## The invariant -/

/-- R28 with R3, R10 and R15 to R21: the reset state of every legal build meets the invariant (the default parameters of
`State.reset` are the model's choice, log 1). -/
def Obligations.ResetMeetsTheInvariant : Prop :=
  Inv State.reset ∧ ∀ c : Config, c.Legal → Inv (State.resetWith c)

/-- R10, R15 to R19 and R21: every step keeps the invariant, whatever the host issues (the canonical form of
the bytes is the model's, log 8). -/
def Obligations.EveryStepKeepsTheInvariant : Prop :=
  ∀ s t : State, Inv s → step s = .next t → Inv t

/-- R231: no command and no reset changes the parameters, which the model holds in the state (log 1). -/
def Obligations.NoStepChangesTheParameters : Prop :=
  ∀ s t : State, step s = .next t → t.config = s.config

/-! ## Encoding -/

/-- R60 to R64: the decoder reads back every command, with every operand, from the word the encoder writes. -/
def Obligations.DecodeReadsBackEveryEncodedCommand : Prop :=
  ∀ i : Instr, decode (encode i) = .ok i

/-- R62 and R65: a word that decodes is exactly the word its command encodes to, so no bit of it is ignored and no
two words are one command. -/
def Obligations.EveryDecodedWordIsItsCommandsEncoding : Prop :=
  ∀ (w : BitVec 32) (i : Instr), decode w = .ok i → encode i = w

/-- R65 (a): the operation codes that are in no command are the 223 the rule lists. -/
def Obligations.UnknownOperationCodesAreTheListedOnes : Prop :=
  ∀ w : BitVec 32, decode w = .error .unknownOp ↔
    ∃ lo hi : Nat, (lo, hi) ∈ [(0x06, 0x0F), (0x16, 0x1F), (0x26, 0x2F), (0x32, 0x3F), (0x44, 0x47), (0x4D, 0x4F),
      (0x54, 0xFF)] ∧ lo ≤ w.toNat / 2 ^ 24 ∧ w.toNat / 2 ^ 24 ≤ hi

/-- R65 (c): the step of a command's own word raises `IllegalCommand` exactly when the command is not well formed
(the model checks the range in the meaning, log 7). -/
def Obligations.IllFormedCommandsAreTheOnesAnsweredIllegal : Prop :=
  ∀ (i : Instr) (s t : State) (d : Word) (rest : List HostInput),
    s.inputs = .command (encode i) d :: rest → step s = .next t →
      (t.responses = s.responses ++ [{ rdata := 0, fault := 1 }] ↔ i.wellFormed = false)

/-- The words of R66 and of the examples of R111, R131 and R165 decode to the commands written beside them. -/
def Obligations.WordsOfTheSpecDecodeAsWritten : Prop :=
  decode 0x1100007E#32 = .ok (.bput .S 0x7E) ∧ decode 0x1101007E#32 = .ok (.bput .D 0x7E) ∧
  decode 0x21580405#32 = .ok (.bffill .x1 .x1 .x2 4 5) ∧ decode 0x04000002#32 = .ok (.csrr .x0 2) ∧
  decode 0x02800000#32 = .ok (.setx .x2) ∧ decode 0x13000000#32 = .ok (.bseek .S 0) ∧
  decode 0x23000103#32 = .ok (.mtset 1 3) ∧ decode 0x4C400000#32 = .ok (.lrcget .x1)

/-! ## System commands -/

/-- R102: `SETX` writes all XLEN bits of the port's data word to the register. -/
def Obligations.SetxLoadsTheDataWord : Prop :=
  ∀ (rd : Reg) (s : State), (encode (.setx rd)).toNat = 0x02000000 + rd.number * 2 ^ 22 ∧
    (s.config.Legal → s.wdata.toNat < 2 ^ s.config.xlen →
      ∃ t, exec (.setx rd) s = .next t ∧ t.reg rd = s.wdata ∧ SameRegsBut rd s t ∧ SameRest s t ∧ SameBufs s t ∧
        Answers 0 s t)

/-- R100 and R103: `NOP` and `GETX` change no state; `NOP` answers `(0, 0)`, `GETX` with the register. -/
def Obligations.NopAndGetxChangeNoState : Prop :=
  encode .nop = 0x00000000#32 ∧ (∀ rs : Reg, (encode (.getx rs)).toNat = 0x03000000 + rs.number * 2 ^ 22) ∧
  ∀ (rs : Reg) (s : State), ∃ t u, exec .nop s = .next t ∧ exec (.getx rs) s = .next u ∧
    (Answers 0 s t ∧ SameRegs s t ∧ SameRest s t ∧ SameBufs s t) ∧
    (Answers (s.reg rs) s u ∧ SameRegs s u ∧ SameRest s u ∧ SameBufs s u)

/-- R104 with R22 and R23: `CSRR` of a number up to 13 reads the register the number names, zero-extended; of a
number past 13 it raises `IllegalCommand`. -/
def Obligations.CsrrReadsTheNumberedRegister : Prop :=
  ∀ (rd : Reg) (csr : Byte) (s : State), Inv s →
    (encode (.csrr rd csr)).toNat = 0x04000000 + rd.number * 2 ^ 22 + csr.toNat ∧
    (csr.toNat ≤ 13 → ∃ t, exec (.csrr rd csr) s = .next t ∧
      some (t.reg rd).toNat =
        [s.crc.toNat, s.lrc.toNat,
          s.status.valid.toNat + 2 * s.status.expv.toNat + 4 * s.status.sync.toNat + 8 * s.status.esc.toNat
            + 16 * s.status.trunc.toNat + 32 * s.status.err.toNat,
          s.fcsexp.toNat, s.fcsact.toNat, s.fcause.toNat, s.fcmd.toNat, s.finfo.toNat,
          s.bufS.len, s.bufS.off, s.bufD.len, s.bufD.off, s.config.cap, s.config.xlen][csr.toNat]? ∧
      SameRegsBut rd s t ∧ SameRest s t ∧ SameBufs s t ∧ Answers 0 s t) ∧
    (csr.toNat > 13 → ∃ t, exec (.csrr rd csr) s = .next t ∧ FaultedAs .illegalCommand 0 s t)

/-- R105 and R24: `CSRW` writes the low bits of the register to `CRC` or `LRC`; any other number raises
`IllegalCommand`. -/
def Obligations.CsrwWritesOnlyTheChecksums : Prop :=
  ∀ (rs : Reg) (csr : Byte) (s : State),
    (encode (.csrw rs csr)).toNat = 0x05000000 + rs.number * 2 ^ 22 + csr.toNat ∧
    (csr.toNat = 0 → ∃ t, exec (.csrw rs csr) s = .next t ∧
      t.crc.toNat = (s.reg rs).toNat % 2 ^ 16 ∧ t.lrc = s.lrc ∧ SameRegs s t ∧ t.status = s.status ∧
      SameFcs s t ∧ SameRecord s t ∧ t.mt = s.mt ∧ SamePort s t ∧ SameBufs s t ∧ Answers 0 s t) ∧
    (csr.toNat = 1 → ∃ t, exec (.csrw rs csr) s = .next t ∧
      t.lrc.toNat = (s.reg rs).toNat % 2 ^ 8 ∧ t.crc = s.crc ∧ SameRegs s t ∧ t.status = s.status ∧
      SameFcs s t ∧ SameRecord s t ∧ t.mt = s.mt ∧ SamePort s t ∧ SameBufs s t ∧ Answers 0 s t) ∧
    (csr.toNat > 1 → ∃ t, exec (.csrw rs csr) s = .next t ∧ FaultedAs .illegalCommand 0 s t)

/-! ## Buffer commands -/

/-- R107: `BNEW` makes a buffer of `n` zero bytes with the cursor at 0, or raises `Capacity`. -/
def Obligations.BnewMakesAZeroBuffer : Prop :=
  ∀ (k : BufSel) (n : BitVec 16) (s : State),
    (encode (.bnew k n)).toNat = 0x10000000 + k.number * 2 ^ 16 + n.toNat ∧
    (n.toNat ≤ s.config.cap → ∃ t, exec (.bnew k n) s = .next t ∧
      (t.buf k).len = n.toNat ∧ (t.buf k).off = 0 ∧ (t.buf k).contents = List.replicate n.toNat 0 ∧
      (∀ j, j ≠ k → SameBuf j s t) ∧ SameRegs s t ∧ SameRest s t ∧ Answers 0 s t) ∧
    (n.toNat > s.config.cap → ∃ t, exec (.bnew k n) s = .next t ∧ FaultedAs .capacity n.toNat s t)

/-- R108 with R41 and R43: `BPUT` stores its byte at the cursor and moves the cursor by one, or raises `OutOfRange`
with the width 1 and the cursor. -/
def Obligations.BputStoresAtTheCursor : Prop :=
  ∀ (k : BufSel) (b : Byte) (s : State),
    (encode (.bput k b)).toNat = 0x11000000 + k.number * 2 ^ 16 + b.toNat ∧
    ((s.buf k).off + 1 ≤ (s.buf k).len → (s.buf k).bytes.wf → ∃ t, exec (.bput k b) s = .next t ∧
      (t.buf k).bytes.read (s.buf k).off = b ∧
      (∀ a, a ≠ (s.buf k).off → (t.buf k).bytes.read a = (s.buf k).bytes.read a) ∧
      (t.buf k).len = (s.buf k).len ∧ (t.buf k).off = (s.buf k).off + 1 ∧
      (∀ j, j ≠ k → SameBuf j s t) ∧ SameRegs s t ∧ SameRest s t ∧ Answers 0 s t) ∧
    ((s.buf k).off + 1 > (s.buf k).len → ∃ t, exec (.bput k b) s = .next t ∧
      FaultedAs .outOfRange (1 <<< 16 ||| (s.buf k).off) s t)

/-- R109: `BPUTX` stores the low byte of a register at the cursor, its upper bits ignored, or raises `OutOfRange`. -/
def Obligations.BputxStoresTheLowByteAtTheCursor : Prop :=
  ∀ (rs : Reg) (k : BufSel) (s : State),
    (encode (.bputx rs k)).toNat = 0x15000000 + rs.number * 2 ^ 22 + k.number * 2 ^ 16 ∧
    ((s.buf k).off + 1 ≤ (s.buf k).len → (s.buf k).bytes.wf → ∃ t, exec (.bputx rs k) s = .next t ∧
      ((t.buf k).bytes.read (s.buf k).off).toNat = (s.reg rs).toNat % 256 ∧
      (∀ a, a ≠ (s.buf k).off → (t.buf k).bytes.read a = (s.buf k).bytes.read a) ∧
      (t.buf k).len = (s.buf k).len ∧ (t.buf k).off = (s.buf k).off + 1 ∧
      (∀ j, j ≠ k → SameBuf j s t) ∧ SameRegs s t ∧ SameRest s t ∧ Answers 0 s t) ∧
    ((s.buf k).off + 1 > (s.buf k).len → ∃ t, exec (.bputx rs k) s = .next t ∧
      FaultedAs .outOfRange (1 <<< 16 ||| (s.buf k).off) s t)

/-- R110: `BGET` reads the byte at the cursor, zero-extended, and moves the cursor by one, or raises `OutOfRange`. -/
def Obligations.BgetReadsAtTheCursor : Prop :=
  ∀ (rd : Reg) (k : BufSel) (s : State),
    (encode (.bget rd k)).toNat = 0x12000000 + rd.number * 2 ^ 22 + k.number * 2 ^ 16 ∧
    (s.config.Legal → (s.buf k).off + 1 ≤ (s.buf k).len → ∃ t, exec (.bget rd k) s = .next t ∧
      (t.reg rd).toNat = ((s.buf k).bytes.read (s.buf k).off).toNat ∧ SameRegsBut rd s t ∧
      (t.buf k).len = (s.buf k).len ∧ (t.buf k).off = (s.buf k).off + 1 ∧
      (∀ a, (t.buf k).bytes.read a = (s.buf k).bytes.read a) ∧
      (∀ j, j ≠ k → SameBuf j s t) ∧ SameRest s t ∧ Answers 0 s t) ∧
    ((s.buf k).off + 1 > (s.buf k).len → ∃ t, exec (.bget rd k) s = .next t ∧
      FaultedAs .outOfRange (1 <<< 16 ||| (s.buf k).off) s t)

/-- R111: `BSEEK` moves the cursor anywhere up to the length and changes nothing else, or raises `SeekRange`. -/
def Obligations.BseekMovesTheCursor : Prop :=
  ∀ (k : BufSel) (pos : BitVec 16) (s : State),
    (encode (.bseek k pos)).toNat = 0x13000000 + k.number * 2 ^ 16 + pos.toNat ∧
    (pos.toNat ≤ (s.buf k).len → ∃ t, exec (.bseek k pos) s = .next t ∧
      (t.buf k).off = pos.toNat ∧ (t.buf k).len = (s.buf k).len ∧
      (∀ a, (t.buf k).bytes.read a = (s.buf k).bytes.read a) ∧
      (∀ j, j ≠ k → SameBuf j s t) ∧ SameRegs s t ∧ SameRest s t ∧ Answers 0 s t) ∧
    (pos.toNat > (s.buf k).len → ∃ t, exec (.bseek k pos) s = .next t ∧ FaultedAs .seekRange pos.toNat s t)

/-- R112: `BSWAP` exchanges the buffers, bytes, lengths and cursors, and two in a row restore them. -/
def Obligations.BswapExchangesTheBuffers : Prop :=
  encode .bswap = 0x14000000#32 ∧
  ∀ s : State, ∃ t u, exec .bswap s = .next t ∧
    (t.bufS = s.bufD ∧ t.bufD = s.bufS) ∧ SameRegs s t ∧ SameRest s t ∧ Answers 0 s t ∧
    exec .bswap t = .next u ∧ u = { s with responses := u.responses }

/-! ## Bit-field unit -/

/-- R127 with R120: `BFEXT` writes bits `start+cnt-1 .. start` of the source, as a number below 2^cnt, or raises
`BitRange`. -/
def Obligations.BfextExtractsTheRange : Prop :=
  ∀ (rd rs1 : Reg) (cnt start : BitVec 7) (s : State),
    (encode (.bfext rd rs1 cnt start)).toNat
      = 0x20000000 + rd.number * 2 ^ 22 + rs1.number * 2 ^ 20 + cnt.toNat * 2 ^ 8 + start.toNat ∧
    (s.config.Legal → cnt.toNat + start.toNat ≤ s.config.xlen → ∃ t, exec (.bfext rd rs1 cnt start) s = .next t ∧
      (t.reg rd).toNat = (s.reg rs1).toNat / 2 ^ start.toNat % 2 ^ cnt.toNat ∧
      SameRegsBut rd s t ∧ SameRest s t ∧ SameBufs s t ∧ Answers 0 s t) ∧
    (cnt.toNat + start.toNat > s.config.xlen → ∃ t, exec (.bfext rd rs1 cnt start) s = .next t ∧
      FaultedAs .bitRange (cnt.toNat * 256 + start.toNat) s t)

/-- R128 with R121: `BFFILL` writes the first source with bits `start+cnt-1 .. start` replaced by the low `cnt` bits
of the second and every other bit unchanged, or raises `BitRange`. The sources are read before the destination is
written, so the registers may coincide (R11). -/
def Obligations.BffillReplacesTheRange : Prop :=
  ∀ (rd rs1 rs2 : Reg) (cnt start : BitVec 7) (s : State),
    (encode (.bffill rd rs1 rs2 cnt start)).toNat
      = 0x21000000 + rd.number * 2 ^ 22 + rs1.number * 2 ^ 20 + rs2.number * 2 ^ 18 + cnt.toNat * 2 ^ 8
        + start.toNat ∧
    (Inv s → cnt.toNat + start.toNat ≤ s.config.xlen → ∃ t, exec (.bffill rd rs1 rs2 cnt start) s = .next t ∧
      (∀ i, (t.reg rd).toNat.testBit i =
        if start.toNat ≤ i ∧ i < start.toNat + cnt.toNat then (s.reg rs2).toNat.testBit (i - start.toNat)
        else (s.reg rs1).toNat.testBit i) ∧
      SameRegsBut rd s t ∧ SameRest s t ∧ SameBufs s t ∧ Answers 0 s t) ∧
    (cnt.toNat + start.toNat > s.config.xlen → ∃ t, exec (.bffill rd rs1 rs2 cnt start) s = .next t ∧
      FaultedAs .bitRange (cnt.toNat * 256 + start.toNat) s t)

/-- R130: `MTCLR` empties every entry of the mask table, and after it `FLPACK` and `FLUNPK` return 0 for every input,
the source register being any and holding any value. -/
def Obligations.MtclrEmptiesTheTable : Prop :=
  encode .mtclr = 0x22000000#32 ∧
  ∀ s : State, ∃ t, exec .mtclr s = .next t ∧
    (t.mt.length = s.config.xlen ∧ ∀ e ∈ t.mt, e = none) ∧ SameRegs s t ∧ SameSums s t ∧ t.status = s.status ∧
    SameFcs s t ∧ SameRecord s t ∧ SamePort s t ∧ SameBufs s t ∧ Answers 0 s t ∧
    ∀ rd rs1 : Reg, ∃ u v, exec (.flpack rd rs1) t = .next u ∧ exec (.flunpk rd rs1) t = .next v ∧
      u.reg rd = 0 ∧ v.reg rd = 0

/-- R131 and R205: `MTSET` raises `BitRange` for an index or position past XLEN, else `MaskOverlap` for a position that
another entry holds, else sets the one entry. -/
def Obligations.MtsetSetsOneEntry : Prop :=
  ∀ (idx pos : BitVec 7) (s : State), Inv s →
    (encode (.mtset idx pos)).toNat = 0x23000000 + idx.toNat * 2 ^ 8 + pos.toNat ∧
    (idx.toNat ≥ s.config.xlen ∨ pos.toNat ≥ s.config.xlen → ∃ t, exec (.mtset idx pos) s = .next t ∧
      FaultedAs .bitRange (idx.toNat * 256 + pos.toNat) s t) ∧
    (idx.toNat < s.config.xlen → pos.toNat < s.config.xlen →
      (∃ j, j ≠ idx.toNat ∧ s.mt[j]? = some (some pos.toNat)) → ∃ t, exec (.mtset idx pos) s = .next t ∧
        FaultedAs .maskOverlap (idx.toNat * 256 + pos.toNat) s t) ∧
    (idx.toNat < s.config.xlen → pos.toNat < s.config.xlen →
      (∀ j, j ≠ idx.toNat → s.mt[j]? ≠ some (some pos.toNat)) → ∃ t, exec (.mtset idx pos) s = .next t ∧
        t.mt[idx.toNat]? = some (some pos.toNat) ∧ (∀ j, j ≠ idx.toNat → t.mt[j]? = s.mt[j]?) ∧
        SameRegs s t ∧ SameSums s t ∧ t.status = s.status ∧ SameFcs s t ∧ SameRecord s t ∧ SamePort s t ∧
        SameBufs s t ∧ Answers 0 s t)

/-- R132 with R123: bit p of what `FLPACK` writes is set exactly when an entry that holds p has its flag set. -/
def Obligations.FlpackSetsTheFlaggedPositions : Prop :=
  ∀ (rd rs1 : Reg) (s : State),
    (encode (.flpack rd rs1)).toNat = 0x24000000 + rd.number * 2 ^ 22 + rs1.number * 2 ^ 20 ∧
    (Inv s → ∃ t, exec (.flpack rd rs1) s = .next t ∧
      (∀ p, (t.reg rd).toNat.testBit p = true ↔
        ∃ i, s.mt[i]? = some (some p) ∧ (s.reg rs1).toNat.testBit i = true) ∧
      SameRegsBut rd s t ∧ SameRest s t ∧ SameBufs s t ∧ Answers 0 s t)

/-- R133 with R124: bit i of what `FLUNPK` writes is set exactly when entry i holds a position whose bit is set. -/
def Obligations.FlunpkSetsTheFlagsOfSetPositions : Prop :=
  ∀ (rd rs1 : Reg) (s : State),
    (encode (.flunpk rd rs1)).toNat = 0x25000000 + rd.number * 2 ^ 22 + rs1.number * 2 ^ 20 ∧
    (Inv s → ∃ t, exec (.flunpk rd rs1) s = .next t ∧
      (∀ i, (t.reg rd).toNat.testBit i = true ↔
        ∃ p, s.mt[i]? = some (some p) ∧ (s.reg rs1).toNat.testBit p = true) ∧
      SameRegsBut rd s t ∧ SameRest s t ∧ SameBufs s t ∧ Answers 0 s t)

/-- R125 (a), (b), (c): a filled range reads back, other ranges are left alone, and fills of ranges that do not overlap
commute. -/
def Obligations.BitRangesFillAndExtractIndependently : Prop :=
  ∀ v cnt start x : Nat,
    (x < 2 ^ cnt → extractBits (fillBits v cnt start x) cnt start = x) ∧
    ∀ c2 s2 : Nat, start + cnt ≤ s2 ∨ s2 + c2 ≤ start →
      extractBits (fillBits v cnt start x) c2 s2 = extractBits v c2 s2 ∧
      ∀ y : Nat, fillBits (fillBits v cnt start x) c2 s2 y = fillBits (fillBits v c2 s2 y) cnt start x

/-- R125 (d): over a table whose positions are distinct, unpacking a packed flag vector keeps exactly the flags the
table knows, and packing an unpacked value keeps exactly the positions it uses. -/
def Obligations.FlagSetsRoundTripThroughTheTable : Prop :=
  ∀ (mt : List (Option Nat)) (v : Nat), (mt.filterMap id).Nodup →
    (∀ i, (toFlagSet mt (fromFlagSet mt v)).testBit i = true ↔ v.testBit i = true ∧ ∃ p, mt[i]? = some (some p)) ∧
    (∀ p, (fromFlagSet mt (toFlagSet mt v)).testBit p = true ↔ v.testBit p = true ∧ some p ∈ mt)

/-! ## Extended-value unit -/

/-- R140: the chain of a value: its length, and the bits of each byte. -/
def Obligations.ExtendedChainHasTheShortestForm : Prop :=
  ∀ v : Nat,
    (v = 0 → encodeExtended v = [0x00]) ∧
    (v ≠ 0 → (encodeExtended v).length = (Nat.size v + 6) / 7 ∧
      ∀ j, j < (encodeExtended v).length → ∃ b, (encodeExtended v)[j]? = some b ∧
        b.toNat = v / 2 ^ (7 * j) % 128 + (if j + 1 < (encodeExtended v).length then 128 else 0))

/-- R141: what the decoder reads: the bytes up to the first whose continuation flag is clear, or all that are left, and
the sum of their groups. -/
def Obligations.ExtendedDecodeReadsOneChain : Prop :=
  ∀ (s : List Byte) (o : Nat), o ≤ s.length → ∃ m, o + m ≤ s.length ∧
    (decodeExtended s o).next = o + m ∧
    (decodeExtended s o).value = ∑ j ∈ Finset.range m, (s.getD (o + j) 0).toNat % 128 * 2 ^ (7 * j) ∧
    (∀ j, j + 1 < m → 128 ≤ (s.getD (o + j) 0).toNat) ∧
    ((decodeExtended s o).trunc = true → o + m = s.length ∧ ∀ j, j < m → 128 ≤ (s.getD (o + j) 0).toNat) ∧
    ((decodeExtended s o).trunc = false → 0 < m ∧ (s.getD (o + m - 1) 0).toNat < 128)

/-- R142 (a): the decoder reads back an encoded value from between any bytes, whole and without truncation. -/
def Obligations.ExtendedValueRoundTrip : Prop :=
  ∀ (v : Nat) (p q : List Byte),
    decodeExtended (p ++ encodeExtended v ++ q) p.length
      = { value := v, next := p.length + (encodeExtended v).length, trunc := false }

/-- R145: `EXTENC` stores the whole chain of a register at the cursor of `D`, or raises `OutOfRange` for the whole
width and stores nothing. -/
def Obligations.ExtencStoresTheChain : Prop :=
  ∀ (rs : Reg) (s : State), (encode (.extenc rs)).toNat = 0x30000000 + rs.number * 2 ^ 22 ∧
    (s.bufD.off + (encodeExtended (s.reg rs).toNat).length ≤ s.bufD.len → s.bufD.bytes.wf →
      ∃ t, exec (.extenc rs) s = .next t ∧
        t.bufD.bytes.readBytes s.bufD.off (encodeExtended (s.reg rs).toNat).length
          = encodeExtended (s.reg rs).toNat ∧
        (∀ a, a < s.bufD.off ∨ s.bufD.off + (encodeExtended (s.reg rs).toNat).length ≤ a →
          t.bufD.bytes.read a = s.bufD.bytes.read a) ∧
        t.bufD.len = s.bufD.len ∧ t.bufD.off = s.bufD.off + (encodeExtended (s.reg rs).toNat).length ∧
        SameBuf .S s t ∧ SameRegs s t ∧ SameRest s t ∧ Answers 0 s t) ∧
    (s.bufD.off + (encodeExtended (s.reg rs).toNat).length > s.bufD.len → ∃ t, exec (.extenc rs) s = .next t ∧
      FaultedAs .outOfRange ((encodeExtended (s.reg rs).toNat).length <<< 16 ||| s.bufD.off) s t)

/-- R146: `EXTDEC` decodes from the cursor of `S` to its length into a register, moves the cursor past the chain and
writes `TRUNC`; a value of 2^XLEN or more raises `ExtOverflow`. -/
def Obligations.ExtdecLoadsTheValue : Prop :=
  ∀ (rd : Reg) (s : State), (encode (.extdec rd)).toNat = 0x31000000 + rd.number * 2 ^ 22 ∧
    (s.config.Legal → (decodeExtended s.bufS.contents s.bufS.off).value < 2 ^ s.config.xlen →
      ∃ t, exec (.extdec rd) s = .next t ∧
        (t.reg rd).toNat = (decodeExtended s.bufS.contents s.bufS.off).value ∧ SameRegsBut rd s t ∧
        t.bufS.off = (decodeExtended s.bufS.contents s.bufS.off).next ∧ t.bufS.len = s.bufS.len ∧
        (∀ a, t.bufS.bytes.read a = s.bufS.bytes.read a) ∧ SameBuf .D s t ∧
        t.status = { s.status with trunc := (decodeExtended s.bufS.contents s.bufS.off).trunc } ∧
        SameSums s t ∧ SameFcs s t ∧ SameRecord s t ∧ t.mt = s.mt ∧ SamePort s t ∧ Answers 0 s t) ∧
    ((decodeExtended s.bufS.contents s.bufS.off).value ≥ 2 ^ s.config.xlen → ∃ t, exec (.extdec rd) s = .next t ∧
      FaultedAs .extOverflow 0 s t)

/-- R142 (a), R145, R146 on the machine: a register encoded into `D`, with the buffers exchanged and the cursor put
back, decodes into any register as the value it was, with `TRUNC` clear. -/
def Obligations.ExtencThenExtdecGivesTheValueBack : Prop :=
  ∀ (rs rd : Reg) (o : BitVec 16) (s : State), Inv s → s.bufD.off = o.toNat →
    o.toNat + (encodeExtended (s.reg rs).toNat).length ≤ s.bufD.len →
      ∃ t u v w, exec (.extenc rs) s = .next t ∧ exec .bswap t = .next u ∧ exec (.bseek .S o) u = .next v ∧
        exec (.extdec rd) v = .next w ∧ w.reg rd = s.reg rs ∧ w.status.trunc = false ∧
        w.bufS.off = o.toNat + (encodeExtended (s.reg rs).toNat).length ∧ SameRegsBut rd s w

/-! ## Checksum units -/

/-- R155, R156, R157: the CRC commands write the raw accumulator and nothing else. -/
def Obligations.CrcCommandsWriteTheAccumulator : Prop :=
  (encode .crcinit = 0x40000000#32 ∧ encode .crcbuf = 0x42000000#32 ∧
    ∀ b : Byte, (encode (.crcupd b)).toNat = 0x41000000 + b.toNat) ∧
  ∀ (s : State) (b : Byte), ∀ p ∈ [(Instr.crcinit, 0xFFFF#16), (.crcupd b, crcStep s.crc b),
      (.crcbuf, crcFold s.crc s.bufS.span)],
    ∃ t, exec p.1 s = .next t ∧ t.crc = p.2 ∧ t.lrc = s.lrc ∧ SameRegs s t ∧ t.status = s.status ∧ SameFcs s t ∧
      SameRecord s t ∧ t.mt = s.mt ∧ SamePort s t ∧ SameBufs s t ∧ Answers 0 s t

/-- R161 to R164: the LRC commands write the accumulator and nothing else. -/
def Obligations.LrcCommandsWriteTheAccumulator : Prop :=
  (encode .lrcinit = 0x48000000#32 ∧ encode .lrcbuf = 0x4B000000#32 ∧
    ∀ b : Byte, (encode (.lrcseed b)).toNat = 0x49000000 + b.toNat ∧
      (encode (.lrcupd b)).toNat = 0x4A000000 + b.toNat) ∧
  ∀ (s : State) (b : Byte), ∀ p ∈ [(Instr.lrcinit, 0x55#8), (.lrcseed b, b), (.lrcupd b, s.lrc ^^^ b),
      (.lrcbuf, s.bufS.span.foldl (· ^^^ ·) s.lrc)],
    ∃ t, exec p.1 s = .next t ∧ t.lrc = p.2 ∧ t.crc = s.crc ∧ SameRegs s t ∧ t.status = s.status ∧ SameFcs s t ∧
      SameRecord s t ∧ t.mt = s.mt ∧ SamePort s t ∧ SameBufs s t ∧ Answers 0 s t

/-- R158 and R165: `CRCGET` reads the checksum after the final XOR and `LRCGET` reads the accumulator as it is; neither
changes an accumulator. -/
def Obligations.ChecksumReadsLeaveTheAccumulators : Prop :=
  ∀ (rd : Reg) (s : State),
    (encode (.crcget rd)).toNat = 0x43000000 + rd.number * 2 ^ 22 ∧
    (encode (.lrcget rd)).toNat = 0x4C000000 + rd.number * 2 ^ 22 ∧
    (s.config.Legal → ∃ t u, exec (.crcget rd) s = .next t ∧ exec (.lrcget rd) s = .next u ∧
      (t.reg rd).toNat = 0xFFFF - s.crc.toNat ∧ (u.reg rd).toNat = s.lrc.toNat ∧
      (SameRegsBut rd s t ∧ SameRest s t ∧ SameBufs s t ∧ Answers 0 s t) ∧
      (SameRegsBut rd s u ∧ SameRest s u ∧ SameBufs s u ∧ Answers 0 s u))

/-- R153: the bit-serial and the table-driven form of `crc_step` agree, and the printed table is the table of the
bit-serial form. -/
def Obligations.CrcStepAgreesWithTheTable : Prop :=
  crcTable.length = 256 ∧ (∀ i : Byte, crcTableEntry i = crcStep 0 i) ∧
  ∀ (c : BitVec 16) (b : Byte), crcStep c b = crcStepByTable c b

/-- R154: folding a sequence and then its checksum, low byte first, leaves the residue `0xF0B8`. -/
def Obligations.CrcResidueIsConstant : Prop :=
  ∀ s : List Byte, crcFold 0xFFFF (s ++ fcsBytes (crc16 s)) = 0xF0B8

/-- R160: the LRC of a sequence in two pieces, of a sequence followed by its own LRC, of its bytes in another order, and
of a sequence with one bit flipped. -/
def Obligations.LrcFoldsByExclusiveOr : Prop :=
  ∀ (s t : List Byte) (i : Byte),
    lrc8 [] i = i ∧ lrc8 (s ++ t) i = lrc8 t (lrc8 s i) ∧ lrc8 (s ++ [lrc8 s i]) i = 0x00 ∧
    (s.Perm t → lrc8 s i = lrc8 t i) ∧
    ∀ (b d : Byte), d ≠ 0 → lrc8 (s ++ (b ^^^ d) :: t) i = lrc8 (s ++ b :: t) i ^^^ d

/-! ## Framer -/

/-- R171 and R173: the length of a stuffed sequence and of a frame, and what stuffing leaves of the reserved bytes: the
escape `0x7D` alone, and only before a substitute. -/
def Obligations.StuffingLeavesReservedBytesOnlyAsEscapes : Prop :=
  ∀ s t : List Byte,
    s.length ≤ (stuff s).length ∧ (stuff s).length ≤ 2 * s.length ∧ stuff (s ++ t) = stuff s ++ stuff t ∧
    0x7E ∉ stuff s ∧ 0x11 ∉ stuff s ∧ 0x13 ∉ stuff s ∧
    (∀ i : Nat, (stuff s)[i]? = some 0x7D → ∃ c : Byte, c ∈ [0x5E, 0x5D, 0x31, 0x33] ∧ (stuff s)[i + 1]? = some c) ∧
    toFrame [] = [] ∧ (s ≠ [] → s.length + 4 ≤ (toFrame s).length ∧ (toFrame s).length ≤ 2 * s.length + 6)

/-- R172: unstuffing reverses stuffing. After any prefix that unstuffs to `u` (whatever it mixes): nothing more ends the
result; an unescaped byte other than the escape, a reserved one too, is copied; an escape and a substitute give the
byte restored; an escape before any other byte (an escape too), or at the end, is an `EscapeError`; and the rest
unstuffs on its own. A result is never longer than its input. -/
def Obligations.UnstuffReversesStuff : Prop :=
  (∀ s : List Byte, unstuff (stuff s) = some s ∧ (0x7D ∉ s → unstuff s = some s)) ∧ unstuff [] = some [] ∧
  ∀ p u : List Byte, unstuff p = some u →
    u.length ≤ p.length ∧ unstuff (p ++ [0x7D]) = none ∧
    ∀ q : List Byte,
      unstuff (p ++ q) = (unstuff q).map (u ++ ·) ∧
      (∀ b : Byte, b ≠ 0x7D → unstuff (p ++ b :: q) = (unstuff q).map (u ++ b :: ·)) ∧
      (∀ r ∈ [(0x5E#8, 0x7E#8), (0x5D, 0x7D), (0x31, 0x11), (0x33, 0x13)],
        unstuff (p ++ 0x7D :: r.1 :: q) = (unstuff q).map (u ++ r.2 :: ·)) ∧
      (∀ b : Byte, b ∉ [0x5E, 0x5D, 0x31, 0x33] → unstuff (p ++ 0x7D :: b :: q) = none)

/-- R174, R15, R202 and R175 (a), (b), (c). A framed content decodes to itself, valid. Fewer than two bytes or a missing
marker fail closed with `SYNC`. Between two markers: an interior that does not unstuff fails closed with `ESC`; one that
unstuffs to fewer than two bytes fails closed with `SYNC`; any other gives all but its last two bytes as the content
and those two, low byte first, as the expected checksum, valid exactly when it is the checksum of the content. And no
result is both valid and closed. -/
def Obligations.FrameDecodeInvertsFrameEncode : Prop :=
  (∀ c : List Byte, c ≠ [] → fromBytes (toFrame c) =
    { content := c, expv := true, exp := crc16 c, act := crc16 c, valid := true, sync := false, esc := false }) ∧
  (∀ w : List Byte, w.length < 2 ∨ w[0]? ≠ some 0x7E ∨ w.getLast? ≠ some 0x7E → fromBytes w =
    { content := [], expv := false, exp := 0, act := 0, valid := false, sync := true, esc := false }) ∧
  (∀ m : List Byte,
    (unstuff m = none → fromBytes (0x7E :: m ++ [0x7E]) =
      { content := [], expv := false, exp := 0, act := 0, valid := false, sync := false, esc := true }) ∧
    (∀ u, unstuff m = some u → u.length < 2 → fromBytes (0x7E :: m ++ [0x7E]) =
      { content := [], expv := false, exp := 0, act := 0, valid := false, sync := true, esc := false }) ∧
    (∀ c low high, unstuff m = some (c ++ [low, high]) → ∃ f : BitVec 16,
      f.toNat = low.toNat + 256 * high.toNat ∧ fromBytes (0x7E :: m ++ [0x7E]) =
        { content := c, expv := true, exp := f, act := crc16 c, valid := decide (f = crc16 c), sync := false,
          esc := false })) ∧
  ∀ w : List Byte,
    ((fromBytes w).valid = true → (fromBytes w).sync = false ∧ (fromBytes w).esc = false) ∧
    ((fromBytes w).expv = false →
      (fromBytes w).content = [] ∧ (fromBytes w).exp = 0 ∧ (fromBytes w).act = 0 ∧ (fromBytes w).valid = false)

/-- R175 (d): of two unstuffed interiors that differ in exactly one bit, at most one is valid. -/
def Obligations.FrameCheckDetectsASingleBitError : Prop :=
  ∀ (p q : List Byte) (b : Byte) (j : Nat), j < 8 →
    ¬((checkInterior (p ++ b :: q)).valid = true ∧ (checkInterior (p ++ (b ^^^ (1#8 <<< j)) :: q)).valid = true)

/-- R180 and R182 with R44 and R45: `STUFF` and `FRMENC` replace `D` by the stuffed or framed span of `S`, or raise
`Capacity` with the length and leave `D`; a content of n bytes always frames when 2n + 6 <= CAP. -/
def Obligations.StuffAndFrmencReplaceD : Prop :=
  encode .stuff = 0x50000000#32 ∧ encode .frmenc = 0x52000000#32 ∧
  ∀ s : State, (2 * s.bufS.off + 6 ≤ s.config.cap → (toFrame s.bufS.span).length ≤ s.config.cap) ∧
    ∀ p ∈ [(Instr.stuff, stuff s.bufS.span), (.frmenc, toFrame s.bufS.span)],
    (p.2.length ≤ s.config.cap → ∃ t, exec p.1 s = .next t ∧
      t.bufD.contents = p.2 ∧ t.bufD.len = p.2.length ∧ t.bufD.off = p.2.length ∧
      SameBuf .S s t ∧ SameRegs s t ∧ SameRest s t ∧ Answers 0 s t) ∧
    (p.2.length > s.config.cap → ∃ t, exec p.1 s = .next t ∧ FaultedAs .capacity p.2.length s t)

/-- R181: `UNSTUFF` replaces `D` by the unstuffed span of `S`, which always fits, or raises `EscapeError`. -/
def Obligations.UnstuffReplacesD : Prop :=
  encode .unstuff = 0x51000000#32 ∧
  ∀ s : State,
    (∀ u, BufferOk s.config.cap s.bufS → unstuff s.bufS.span = some u → ∃ t, exec .unstuff s = .next t ∧
      t.bufD.contents = u ∧ t.bufD.len = u.length ∧ t.bufD.off = u.length ∧
      SameBuf .S s t ∧ SameRegs s t ∧ SameRest s t ∧ Answers 0 s t) ∧
    (unstuff s.bufS.span = none → ∃ t, exec .unstuff s = .next t ∧ FaultedAs .escapeError 0 s t)

/-- R183: `FRMDEC` never faults: it replaces `D` by the content, and writes both checksum results and the four frame
flags, leaving `TRUNC` and `ERR`. -/
def Obligations.FrmdecReportsTheFrame : Prop :=
  encode .frmdec = 0x53000000#32 ∧
  ∀ s : State, BufferOk s.config.cap s.bufS → ∃ t, exec .frmdec s = .next t ∧
    t.bufD.contents = (fromBytes s.bufS.span).content ∧ t.bufD.len = (fromBytes s.bufS.span).content.length ∧
    t.bufD.off = (fromBytes s.bufS.span).content.length ∧
    t.fcsexp = (fromBytes s.bufS.span).exp ∧ t.fcsact = (fromBytes s.bufS.span).act ∧
    t.status = { s.status with
      valid := (fromBytes s.bufS.span).valid
      expv := (fromBytes s.bufS.span).expv
      sync := (fromBytes s.bufS.span).sync
      esc := (fromBytes s.bufS.span).esc } ∧
    SameBuf .S s t ∧ SameRegs s t ∧ SameSums s t ∧ SameRecord s t ∧ t.mt = s.mt ∧ SamePort s t ∧ Answers 0 s t

/-- R175 (a), R182, R112, R183 on the machine: a content that is framed, with the buffers exchanged, decodes to itself:
the content is back in `D` and the frame is valid, and no register, accumulator or mask is touched on the way. -/
def Obligations.FrmencThenFrmdecGivesTheContentBack : Prop :=
  ∀ s : State, Inv s → 0 < s.bufS.off → 2 * s.bufS.off + 6 ≤ s.config.cap →
    ∃ t u v, exec .frmenc s = .next t ∧ exec .bswap t = .next u ∧ exec .frmdec u = .next v ∧
      v.bufD.contents = s.bufS.span ∧
      v.status = { s.status with valid := true, expv := true, sync := false, esc := false } ∧
      v.fcsexp = crc16 s.bufS.span ∧ v.fcsact = crc16 s.bufS.span ∧
      SameRegs s v ∧ SameSums s v ∧ SameRecord s v ∧ v.mt = s.mt

/-! ## Rules of the whole machine -/

/-- R4, R5, R203 and R204: every command gives one response; a command that faults changes nothing but the fault record
and `ERR`; a command that does not leaves the fault record and `ERR` alone, unless it is `RST`. -/
def Obligations.AFaultChangesOnlyTheFaultRecord : Prop :=
  ∀ (i : Instr) (s t : State), exec i s = .next t →
    ∃ a, t.responses = s.responses ++ [a] ∧ a.fault.toNat ≤ 8 ∧
      (a.fault ≠ 0 → a.rdata = 0 ∧ t = { s with
        fcause := a.fault
        fcmd := s.cmd
        finfo := t.finfo
        status := { s.status with err := true }
        responses := t.responses }) ∧
      (a.fault = 0 → i ≠ .rst → SameRecord s t ∧ t.status.err = s.status.err)

/-- R201, third column: which fault codes each command can be answered with. The clauses for a cursor of `S` past CAP
are about states that no run reaches and are the model's (log 10). -/
def Obligations.EachCommandRaisesOnlyItsFaults : Prop :=
  ∀ (i : Instr) (s t : State) (a : Response), exec i s = .next t → t.responses = s.responses ++ [a] →
    a.fault ∈ (match i with
      | .csrr _ _ | .csrw _ _ => [0, 1]
      | .bput _ _ | .bputx _ _ | .bget _ _ | .extenc _ => [0, 2]
      | .bnew _ _ | .stuff | .frmenc => [0, 3]
      | .bfext _ _ _ _ | .bffill _ _ _ _ _ => [0, 4]
      | .mtset _ _ => [0, 4, 7]
      | .extdec _ => [0, 5]
      | .unstuff => if s.bufS.off ≤ s.config.cap then [0, 6] else [0, 3, 6]
      | .frmdec => if s.bufS.off ≤ s.config.cap then [0] else [0, 3]
      | .bseek _ _ => [0, 8]
      | _ => [0] : List (BitVec 8))

/-- R11: a command changes no general register but the destination of the commands that have one, and `RST`. -/
def Obligations.RegistersAreWrittenOnlyByTheirCommands : Prop :=
  ∀ (i : Instr) (s t : State) (r : Reg), exec i s = .next t → t.reg r ≠ s.reg r →
    match i with
    | .setx rd | .csrr rd _ | .bget rd _ | .bfext rd _ _ _ | .bffill rd _ _ _ _ | .flpack rd _ | .flunpk rd _
    | .extdec rd | .crcget rd | .lrcget rd => r = rd
    | .rst => True
    | _ => False

/-- R13 to R16 and R18: which commands can change the accumulators, the frame results, the mask table and each flag;
`ERR` is cleared by `RST` only. -/
def Obligations.UnitStateIsWrittenOnlyByItsCommands : Prop :=
  ∀ (i : Instr) (s t : State), exec i s = .next t →
    (t.crc ≠ s.crc → match i with
      | .crcinit | .crcupd _ | .crcbuf | .rst => True
      | .csrw _ csr => csr = 0
      | _ => False) ∧
    (t.lrc ≠ s.lrc → match i with
      | .lrcinit | .lrcseed _ | .lrcupd _ | .lrcbuf | .rst => True
      | .csrw _ csr => csr = 1
      | _ => False) ∧
    (¬SameFcs s t → i = .frmdec ∨ i = .rst) ∧
    (t.mt ≠ s.mt → match i with
      | .mtclr | .mtset _ _ | .rst => True
      | _ => False) ∧
    ((t.status.valid ≠ s.status.valid ∨ t.status.expv ≠ s.status.expv ∨ t.status.sync ≠ s.status.sync ∨
        t.status.esc ≠ s.status.esc) → i = .frmdec ∨ i = .rst) ∧
    (t.status.trunc ≠ s.status.trunc → (∃ rd, i = .extdec rd) ∨ i = .rst) ∧
    (s.status.err = true → t.status.err = false → i = .rst)

/-- R4 and R60: `rdata` is zero for every command but `GETX`, and for every command but `SETX` the port's data word is
ignored, whatever its value (the field that holds it is the model's, log 3). -/
def Obligations.OnlySetxTakesAndOnlyGetxGivesData : Prop :=
  ∀ (i : Instr) (s t : State), exec i s = .next t →
    (∀ a, t.responses = s.responses ++ [a] → a.rdata ≠ 0 → ∃ rs, i = .getx rs) ∧
    ((∀ rd, i ≠ .setx rd) → ∀ d : Word, exec i { s with wdata := d } = .next { t with wdata := d })

/-- R235: `FRMENC` and `FRMDEC` neither use nor disturb `crc`: a running checksum makes no difference to a frame
operation and survives it. -/
def Obligations.FrameCommandsIgnoreTheRunningCrc : Prop :=
  ∀ (c : BitVec 16) (s t : State) (i : Instr), i ∈ [Instr.frmenc, .frmdec] → exec i s = .next t →
    t.crc = s.crc ∧ exec i { s with crc := c } = .next { t with crc := c }
end

