-- ==== Sys2Proof/Laws/Decode.lean ====
section
/-! SUPPORT. The fields of an assembled command word, each said once. -/

namespace Sys2Proof

theorem Reg.number_lt (r : Reg) : r.number < 4 := by cases r <;> decide

@[simp] theorem Reg.ofNumber_number (r : Reg) : Reg.ofNumber r.number = r := by cases r <;> rfl

theorem BufSel.number_lt (k : BufSel) : k.number < 2 := by cases k <;> decide

@[simp] theorem BufSel.ofNumber_number (k : BufSel) : BufSel.ofNumber k.number = k := by cases k <;> rfl

/-- A register's number is the field it was read from. -/
theorem Reg.number_ofNumber {n : Nat} (h : n < 4) : (Reg.ofNumber n).number = n := by
  interval_cases n <;> rfl

/-- A buffer's number is the field it was read from. -/
theorem BufSel.number_ofNumber {n : Nat} (h : n < 2) : (BufSel.ofNumber n).number = n := by
  interval_cases n <;> rfl

/-- `w[hi:lo]` by division. -/
theorem bits_eq (w : BitVec 32) (hi lo : Nat) : bits w hi lo = w.toNat / 2 ^ lo % 2 ^ (hi - lo + 1) := by
  rw [bits, Nat.shiftRight_eq_div_pow]

/-- Fields within their widths (R61): the low half word holds `cnt` and `start`, or an immediate with `cnt` zero. -/
structure FieldsFit (op ra rb rc k cnt low : Nat) : Prop where
  op : op < 256
  ra : ra < 4
  rb : rb < 4
  rc : rc < 4
  k : k < 2
  low : cnt * 256 + low < 65536

section
variable {op ra rb rc k cnt low : Nat} (h : FieldsFit op ra rb rc k cnt low)
include h

/-- Fields within their widths do not overlap: the word is their sum. -/
theorem toNat_assemble : (assemble op ra rb rc k cnt low).toNat
    = op * 16777216 + ra * 4194304 + rb * 1048576 + rc * 262144 + k * 65536 + cnt * 256 + low := by
  obtain ⟨h1, h2, h3, h4, h5, h6⟩ := h
  simp only [assemble, BitVec.toNat_ofNat]
  omega

theorem opField_assemble : opField (assemble op ra rb rc k cnt low) = op := by
  rw [opField, bits_eq, toNat_assemble h]
  obtain ⟨h1, h2, h3, h4, h5, h6⟩ := h
  omega

theorem bits_assemble_ra : bits (assemble op ra rb rc k cnt low) 23 22 = ra := by
  rw [bits_eq, toNat_assemble h]
  obtain ⟨h1, h2, h3, h4, h5, h6⟩ := h
  omega

theorem bits_assemble_rb : bits (assemble op ra rb rc k cnt low) 21 20 = rb := by
  rw [bits_eq, toNat_assemble h]
  obtain ⟨h1, h2, h3, h4, h5, h6⟩ := h
  omega

theorem bits_assemble_rc : bits (assemble op ra rb rc k cnt low) 19 18 = rc := by
  rw [bits_eq, toNat_assemble h]
  obtain ⟨h1, h2, h3, h4, h5, h6⟩ := h
  omega

theorem bits_assemble_k : bits (assemble op ra rb rc k cnt low) 16 16 = k := by
  rw [bits_eq, toNat_assemble h]
  obtain ⟨h1, h2, h3, h4, h5, h6⟩ := h
  omega

/-- The half word below `k`. -/
theorem bits_assemble_low : bits (assemble op ra rb rc k cnt low) 15 0 = cnt * 256 + low := by
  rw [bits_eq, toNat_assemble h]
  obtain ⟨h1, h2, h3, h4, h5, h6⟩ := h
  omega

/-- `cnt`, where the low byte holds no more than a byte. -/
theorem bits_assemble_cnt (hc : cnt < 128) (hl : low < 256) :
    bits (assemble op ra rb rc k cnt low) 14 8 = cnt := by
  rw [bits_eq, toNat_assemble h]
  obtain ⟨h1, h2, h3, h4, h5, h6⟩ := h
  omega

/-- `start`. -/
theorem bits_assemble_start (hl : low < 128) : bits (assemble op ra rb rc k cnt low) 6 0 = low := by
  rw [bits_eq, toNat_assemble h]
  obtain ⟨h1, h2, h3, h4, h5, h6⟩ := h
  omega

/-- `imm8`. -/
theorem bits_assemble_imm8 (hl : low < 256) : bits (assemble op ra rb rc k cnt low) 7 0 = low := by
  rw [bits_eq, toNat_assemble h]
  obtain ⟨h1, h2, h3, h4, h5, h6⟩ := h
  omega

end

end Sys2Proof
end

