-- ==== Sys2Proof/Laws/State.lean ====
section
/-! SUPPORT. One lemma per field per update of the state, and what the accessors of `Operands.lean` read after a
write, so that no later proof unfolds a record update. -/

namespace Sys2Proof.Machine

variable (s : State)

/-! ## A register write -/

@[simp] theorem State.setReg_config (r : Reg) (v : Nat) : (s.setReg r v).config = s.config := rfl
@[simp] theorem State.setReg_x (r : Reg) (v : Nat) : (s.setReg r v).x = s.x.set r (.ofNat 64 (v % 2 ^ s.config.xlen)) := rfl
@[simp] theorem State.setReg_crc (r : Reg) (v : Nat) : (s.setReg r v).crc = s.crc := rfl
@[simp] theorem State.setReg_lrc (r : Reg) (v : Nat) : (s.setReg r v).lrc = s.lrc := rfl
@[simp] theorem State.setReg_status (r : Reg) (v : Nat) : (s.setReg r v).status = s.status := rfl
@[simp] theorem State.setReg_fcsexp (r : Reg) (v : Nat) : (s.setReg r v).fcsexp = s.fcsexp := rfl
@[simp] theorem State.setReg_fcsact (r : Reg) (v : Nat) : (s.setReg r v).fcsact = s.fcsact := rfl
@[simp] theorem State.setReg_fcause (r : Reg) (v : Nat) : (s.setReg r v).fcause = s.fcause := rfl
@[simp] theorem State.setReg_fcmd (r : Reg) (v : Nat) : (s.setReg r v).fcmd = s.fcmd := rfl
@[simp] theorem State.setReg_finfo (r : Reg) (v : Nat) : (s.setReg r v).finfo = s.finfo := rfl
@[simp] theorem State.setReg_mt (r : Reg) (v : Nat) : (s.setReg r v).mt = s.mt := rfl
@[simp] theorem State.setReg_bufS (r : Reg) (v : Nat) : (s.setReg r v).bufS = s.bufS := rfl
@[simp] theorem State.setReg_bufD (r : Reg) (v : Nat) : (s.setReg r v).bufD = s.bufD := rfl
@[simp] theorem State.setReg_inputs (r : Reg) (v : Nat) : (s.setReg r v).inputs = s.inputs := rfl
@[simp] theorem State.setReg_cmd (r : Reg) (v : Nat) : (s.setReg r v).cmd = s.cmd := rfl
@[simp] theorem State.setReg_wdata (r : Reg) (v : Nat) : (s.setReg r v).wdata = s.wdata := rfl
@[simp] theorem State.setReg_responses (r : Reg) (v : Nat) : (s.setReg r v).responses = s.responses := rfl

/-! ## A buffer write -/

@[simp] theorem State.setBuf_config (k : BufSel) (b : Buffer) : (s.setBuf k b).config = s.config := by cases k <;> rfl
@[simp] theorem State.setBuf_x (k : BufSel) (b : Buffer) : (s.setBuf k b).x = s.x := by cases k <;> rfl
@[simp] theorem State.setBuf_crc (k : BufSel) (b : Buffer) : (s.setBuf k b).crc = s.crc := by cases k <;> rfl
@[simp] theorem State.setBuf_lrc (k : BufSel) (b : Buffer) : (s.setBuf k b).lrc = s.lrc := by cases k <;> rfl
@[simp] theorem State.setBuf_status (k : BufSel) (b : Buffer) : (s.setBuf k b).status = s.status := by cases k <;> rfl
@[simp] theorem State.setBuf_fcsexp (k : BufSel) (b : Buffer) : (s.setBuf k b).fcsexp = s.fcsexp := by cases k <;> rfl
@[simp] theorem State.setBuf_fcsact (k : BufSel) (b : Buffer) : (s.setBuf k b).fcsact = s.fcsact := by cases k <;> rfl
@[simp] theorem State.setBuf_fcause (k : BufSel) (b : Buffer) : (s.setBuf k b).fcause = s.fcause := by cases k <;> rfl
@[simp] theorem State.setBuf_fcmd (k : BufSel) (b : Buffer) : (s.setBuf k b).fcmd = s.fcmd := by cases k <;> rfl
@[simp] theorem State.setBuf_finfo (k : BufSel) (b : Buffer) : (s.setBuf k b).finfo = s.finfo := by cases k <;> rfl
@[simp] theorem State.setBuf_mt (k : BufSel) (b : Buffer) : (s.setBuf k b).mt = s.mt := by cases k <;> rfl
@[simp] theorem State.setBuf_inputs (k : BufSel) (b : Buffer) : (s.setBuf k b).inputs = s.inputs := by cases k <;> rfl
@[simp] theorem State.setBuf_cmd (k : BufSel) (b : Buffer) : (s.setBuf k b).cmd = s.cmd := by cases k <;> rfl
@[simp] theorem State.setBuf_wdata (k : BufSel) (b : Buffer) : (s.setBuf k b).wdata = s.wdata := by cases k <;> rfl
@[simp] theorem State.setBuf_responses (k : BufSel) (b : Buffer) : (s.setBuf k b).responses = s.responses := by cases k <;> rfl

/-! ## A response -/

@[simp] theorem State.answered_config (d : Word) : (s.answered d).config = s.config := rfl
@[simp] theorem State.answered_x (d : Word) : (s.answered d).x = s.x := rfl
@[simp] theorem State.answered_crc (d : Word) : (s.answered d).crc = s.crc := rfl
@[simp] theorem State.answered_lrc (d : Word) : (s.answered d).lrc = s.lrc := rfl
@[simp] theorem State.answered_status (d : Word) : (s.answered d).status = s.status := rfl
@[simp] theorem State.answered_fcsexp (d : Word) : (s.answered d).fcsexp = s.fcsexp := rfl
@[simp] theorem State.answered_fcsact (d : Word) : (s.answered d).fcsact = s.fcsact := rfl
@[simp] theorem State.answered_fcause (d : Word) : (s.answered d).fcause = s.fcause := rfl
@[simp] theorem State.answered_fcmd (d : Word) : (s.answered d).fcmd = s.fcmd := rfl
@[simp] theorem State.answered_finfo (d : Word) : (s.answered d).finfo = s.finfo := rfl
@[simp] theorem State.answered_mt (d : Word) : (s.answered d).mt = s.mt := rfl
@[simp] theorem State.answered_bufS (d : Word) : (s.answered d).bufS = s.bufS := rfl
@[simp] theorem State.answered_bufD (d : Word) : (s.answered d).bufD = s.bufD := rfl
@[simp] theorem State.answered_inputs (d : Word) : (s.answered d).inputs = s.inputs := rfl
@[simp] theorem State.answered_cmd (d : Word) : (s.answered d).cmd = s.cmd := rfl
@[simp] theorem State.answered_wdata (d : Word) : (s.answered d).wdata = s.wdata := rfl
@[simp] theorem State.answered_responses (d : Word) : (s.answered d).responses = s.responses ++ [{ rdata := d, fault := 0 }] := rfl

/-! ## A fault -/

@[simp] theorem State.faulted_config (f : FaultCode) (i : Nat) : (s.faulted f i).config = s.config := rfl
@[simp] theorem State.faulted_x (f : FaultCode) (i : Nat) : (s.faulted f i).x = s.x := rfl
@[simp] theorem State.faulted_crc (f : FaultCode) (i : Nat) : (s.faulted f i).crc = s.crc := rfl
@[simp] theorem State.faulted_lrc (f : FaultCode) (i : Nat) : (s.faulted f i).lrc = s.lrc := rfl
@[simp] theorem State.faulted_status (f : FaultCode) (i : Nat) : (s.faulted f i).status = s.status.withErr := rfl
@[simp] theorem State.faulted_fcsexp (f : FaultCode) (i : Nat) : (s.faulted f i).fcsexp = s.fcsexp := rfl
@[simp] theorem State.faulted_fcsact (f : FaultCode) (i : Nat) : (s.faulted f i).fcsact = s.fcsact := rfl
@[simp] theorem State.faulted_fcause (f : FaultCode) (i : Nat) : (s.faulted f i).fcause = f.code := rfl
@[simp] theorem State.faulted_fcmd (f : FaultCode) (i : Nat) : (s.faulted f i).fcmd = s.cmd := rfl
@[simp] theorem State.faulted_finfo (f : FaultCode) (i : Nat) : (s.faulted f i).finfo = .ofNat 32 i := rfl
@[simp] theorem State.faulted_mt (f : FaultCode) (i : Nat) : (s.faulted f i).mt = s.mt := rfl
@[simp] theorem State.faulted_bufS (f : FaultCode) (i : Nat) : (s.faulted f i).bufS = s.bufS := rfl
@[simp] theorem State.faulted_bufD (f : FaultCode) (i : Nat) : (s.faulted f i).bufD = s.bufD := rfl
@[simp] theorem State.faulted_inputs (f : FaultCode) (i : Nat) : (s.faulted f i).inputs = s.inputs := rfl
@[simp] theorem State.faulted_cmd (f : FaultCode) (i : Nat) : (s.faulted f i).cmd = s.cmd := rfl
@[simp] theorem State.faulted_wdata (f : FaultCode) (i : Nat) : (s.faulted f i).wdata = s.wdata := rfl
@[simp] theorem State.faulted_responses (f : FaultCode) (i : Nat) : (s.faulted f i).responses = s.responses ++ [{ rdata := 0, fault := f.code }] := rfl

/-! ## Reset -/

@[simp] theorem State.toReset_config : (s.toReset).config = s.config := rfl
@[simp] theorem State.toReset_x : (s.toReset).x = (State.resetWith s.config).x := rfl
@[simp] theorem State.toReset_crc : (s.toReset).crc = (State.resetWith s.config).crc := rfl
@[simp] theorem State.toReset_lrc : (s.toReset).lrc = (State.resetWith s.config).lrc := rfl
@[simp] theorem State.toReset_status : (s.toReset).status = (State.resetWith s.config).status := rfl
@[simp] theorem State.toReset_fcsexp : (s.toReset).fcsexp = (State.resetWith s.config).fcsexp := rfl
@[simp] theorem State.toReset_fcsact : (s.toReset).fcsact = (State.resetWith s.config).fcsact := rfl
@[simp] theorem State.toReset_fcause : (s.toReset).fcause = (State.resetWith s.config).fcause := rfl
@[simp] theorem State.toReset_fcmd : (s.toReset).fcmd = (State.resetWith s.config).fcmd := rfl
@[simp] theorem State.toReset_finfo : (s.toReset).finfo = (State.resetWith s.config).finfo := rfl
@[simp] theorem State.toReset_mt : (s.toReset).mt = (State.resetWith s.config).mt := rfl
@[simp] theorem State.toReset_bufS : (s.toReset).bufS = (State.resetWith s.config).bufS := rfl
@[simp] theorem State.toReset_bufD : (s.toReset).bufD = (State.resetWith s.config).bufD := rfl
@[simp] theorem State.toReset_inputs : (s.toReset).inputs = s.inputs := rfl
@[simp] theorem State.toReset_cmd : (s.toReset).cmd = s.cmd := rfl
@[simp] theorem State.toReset_wdata : (s.toReset).wdata = s.wdata := rfl
@[simp] theorem State.toReset_responses : (s.toReset).responses = s.responses := rfl

/-! ## Taking a command -/

@[simp] theorem State.accept_config (c : BitVec 32) (d : Word) (rest : List HostInput) : (s.accept c d rest).config = s.config := rfl
@[simp] theorem State.accept_x (c : BitVec 32) (d : Word) (rest : List HostInput) : (s.accept c d rest).x = s.x := rfl
@[simp] theorem State.accept_crc (c : BitVec 32) (d : Word) (rest : List HostInput) : (s.accept c d rest).crc = s.crc := rfl
@[simp] theorem State.accept_lrc (c : BitVec 32) (d : Word) (rest : List HostInput) : (s.accept c d rest).lrc = s.lrc := rfl
@[simp] theorem State.accept_status (c : BitVec 32) (d : Word) (rest : List HostInput) : (s.accept c d rest).status = s.status := rfl
@[simp] theorem State.accept_fcsexp (c : BitVec 32) (d : Word) (rest : List HostInput) : (s.accept c d rest).fcsexp = s.fcsexp := rfl
@[simp] theorem State.accept_fcsact (c : BitVec 32) (d : Word) (rest : List HostInput) : (s.accept c d rest).fcsact = s.fcsact := rfl
@[simp] theorem State.accept_fcause (c : BitVec 32) (d : Word) (rest : List HostInput) : (s.accept c d rest).fcause = s.fcause := rfl
@[simp] theorem State.accept_fcmd (c : BitVec 32) (d : Word) (rest : List HostInput) : (s.accept c d rest).fcmd = s.fcmd := rfl
@[simp] theorem State.accept_finfo (c : BitVec 32) (d : Word) (rest : List HostInput) : (s.accept c d rest).finfo = s.finfo := rfl
@[simp] theorem State.accept_mt (c : BitVec 32) (d : Word) (rest : List HostInput) : (s.accept c d rest).mt = s.mt := rfl
@[simp] theorem State.accept_bufS (c : BitVec 32) (d : Word) (rest : List HostInput) : (s.accept c d rest).bufS = s.bufS := rfl
@[simp] theorem State.accept_bufD (c : BitVec 32) (d : Word) (rest : List HostInput) : (s.accept c d rest).bufD = s.bufD := rfl
@[simp] theorem State.accept_inputs (c : BitVec 32) (d : Word) (rest : List HostInput) : (s.accept c d rest).inputs = rest := rfl
@[simp] theorem State.accept_cmd (c : BitVec 32) (d : Word) (rest : List HostInput) : (s.accept c d rest).cmd = c := rfl
@[simp] theorem State.accept_wdata (c : BitVec 32) (d : Word) (rest : List HostInput) : (s.accept c d rest).wdata = d := rfl
@[simp] theorem State.accept_responses (c : BitVec 32) (d : Word) (rest : List HostInput) : (s.accept c d rest).responses = s.responses := rfl

/-! ## The registers of a frame decode -/

@[simp] theorem State.withFrameResult_config (r : FrameResult) : (s.withFrameResult r).config = s.config := rfl
@[simp] theorem State.withFrameResult_x (r : FrameResult) : (s.withFrameResult r).x = s.x := rfl
@[simp] theorem State.withFrameResult_crc (r : FrameResult) : (s.withFrameResult r).crc = s.crc := rfl
@[simp] theorem State.withFrameResult_lrc (r : FrameResult) : (s.withFrameResult r).lrc = s.lrc := rfl
@[simp] theorem State.withFrameResult_status (r : FrameResult) : (s.withFrameResult r).status = s.status.withFrame r.valid r.expv r.sync r.esc := rfl
@[simp] theorem State.withFrameResult_fcsexp (r : FrameResult) : (s.withFrameResult r).fcsexp = r.exp := rfl
@[simp] theorem State.withFrameResult_fcsact (r : FrameResult) : (s.withFrameResult r).fcsact = r.act := rfl
@[simp] theorem State.withFrameResult_fcause (r : FrameResult) : (s.withFrameResult r).fcause = s.fcause := rfl
@[simp] theorem State.withFrameResult_fcmd (r : FrameResult) : (s.withFrameResult r).fcmd = s.fcmd := rfl
@[simp] theorem State.withFrameResult_finfo (r : FrameResult) : (s.withFrameResult r).finfo = s.finfo := rfl
@[simp] theorem State.withFrameResult_mt (r : FrameResult) : (s.withFrameResult r).mt = s.mt := rfl
@[simp] theorem State.withFrameResult_bufS (r : FrameResult) : (s.withFrameResult r).bufS = s.bufS := rfl
@[simp] theorem State.withFrameResult_bufD (r : FrameResult) : (s.withFrameResult r).bufD = s.bufD := rfl
@[simp] theorem State.withFrameResult_inputs (r : FrameResult) : (s.withFrameResult r).inputs = s.inputs := rfl
@[simp] theorem State.withFrameResult_cmd (r : FrameResult) : (s.withFrameResult r).cmd = s.cmd := rfl
@[simp] theorem State.withFrameResult_wdata (r : FrameResult) : (s.withFrameResult r).wdata = s.wdata := rfl
@[simp] theorem State.withFrameResult_responses (r : FrameResult) : (s.withFrameResult r).responses = s.responses := rfl

/-! ## The flags -/

variable (f : Status)

@[simp] theorem Status.withErr_err : f.withErr.err = true := rfl
@[simp] theorem Status.withErr_valid : f.withErr.valid = f.valid := rfl
@[simp] theorem Status.withErr_expv : f.withErr.expv = f.expv := rfl
@[simp] theorem Status.withErr_sync : f.withErr.sync = f.sync := rfl
@[simp] theorem Status.withErr_esc : f.withErr.esc = f.esc := rfl
@[simp] theorem Status.withErr_trunc : f.withErr.trunc = f.trunc := rfl
@[simp] theorem Status.withTrunc_trunc (b : Bool) : (f.withTrunc b).trunc = b := rfl
@[simp] theorem Status.withTrunc_valid (b : Bool) : (f.withTrunc b).valid = f.valid := rfl
@[simp] theorem Status.withTrunc_expv (b : Bool) : (f.withTrunc b).expv = f.expv := rfl
@[simp] theorem Status.withTrunc_sync (b : Bool) : (f.withTrunc b).sync = f.sync := rfl
@[simp] theorem Status.withTrunc_esc (b : Bool) : (f.withTrunc b).esc = f.esc := rfl
@[simp] theorem Status.withTrunc_err (b : Bool) : (f.withTrunc b).err = f.err := rfl
@[simp] theorem Status.withFrame_valid (v e y x : Bool) : (f.withFrame v e y x).valid = v := rfl
@[simp] theorem Status.withFrame_expv (v e y x : Bool) : (f.withFrame v e y x).expv = e := rfl
@[simp] theorem Status.withFrame_sync (v e y x : Bool) : (f.withFrame v e y x).sync = y := rfl
@[simp] theorem Status.withFrame_esc (v e y x : Bool) : (f.withFrame v e y x).esc = x := rfl
@[simp] theorem Status.withFrame_trunc (v e y x : Bool) : (f.withFrame v e y x).trunc = f.trunc := rfl
@[simp] theorem Status.withFrame_err (v e y x : Bool) : (f.withFrame v e y x).err = f.err := rfl

/-! ## Reading what was written -/

/-- A register file reads back what was written to the register, and every other register as before. -/
theorem Regs.get_set (x : Regs) (r q : Reg) (v : Word) :
    (x.set r v).get q = if q = r then v else x.get q := by
  cases r <;> cases q <;> rfl

/-- A register reads back the low XLEN bits of what was written. -/
@[simp] theorem State.reg_setReg_self (r : Reg) (v : Nat) :
    (s.setReg r v).reg r = .ofNat 64 (v % 2 ^ s.config.xlen) := by
  simp [State.reg, Regs.get_set]

/-- Writing one register leaves every other as it was. -/
theorem State.reg_setReg_other {r q : Reg} (h : q ≠ r) (v : Nat) :
    (s.setReg r v).reg q = s.reg q := by
  simp [State.reg, Regs.get_set, h]

/-- A value below 2^XLEN is read back whole (XLEN is at most 64). -/
theorem State.toNat_reg_setReg (r : Reg) {v : Nat} (hc : s.config.xlen ≤ 64) (h : v < 2 ^ s.config.xlen) :
    ((s.setReg r v).reg r).toNat = v := by
  have : v < 2 ^ 64 := lt_of_lt_of_le h (Nat.pow_le_pow_right (by omega) hc)
  rw [State.reg_setReg_self, Nat.mod_eq_of_lt h, BitVec.toNat_ofNat, Nat.mod_eq_of_lt this]

/-- Every register is in range after a register write, if it was before. -/
theorem State.setReg_regsInRange {s : State} (h : RegsInRange s) (r : Reg) (v : Nat) :
    RegsInRange (s.setReg r v) := by
  have hv : (BitVec.ofNat 64 (v % 2 ^ s.config.xlen)).toNat < 2 ^ s.config.xlen :=
    lt_of_le_of_lt (by simpa using Nat.mod_le _ _) (Nat.mod_lt v (by positivity))
  obtain ⟨h0, h1, h2, h3⟩ := h
  cases r <;> exact ⟨‹_›, ‹_›, ‹_›, ‹_›⟩

/-- A register in range, by its number. -/
theorem RegsInRange.reg {s : State} (h : RegsInRange s) (r : Reg) : (s.reg r).toNat < 2 ^ s.config.xlen := by
  obtain ⟨h0, h1, h2, h3⟩ := h
  cases r <;> assumption

@[simp] theorem State.buf_S : s.buf .S = s.bufS := rfl
@[simp] theorem State.buf_D : s.buf .D = s.bufD := rfl

/-- Buffer `k` is what was written to it. -/
@[simp] theorem State.buf_setBuf_self (k : BufSel) (b : Buffer) : (s.setBuf k b).buf k = b := by
  cases k <;> rfl

/-- Writing one buffer leaves the other as it was. -/
theorem State.buf_setBuf_other {k j : BufSel} (h : j ≠ k) (b : Buffer) : (s.setBuf k b).buf j = s.buf j := by
  cases k <;> cases j <;> first | rfl | exact absurd rfl h

@[simp] theorem State.reg_setBuf (k : BufSel) (b : Buffer) (r : Reg) : (s.setBuf k b).reg r = s.reg r := by
  cases k <;> rfl

@[simp] theorem State.buf_setReg (r : Reg) (v : Nat) (k : BufSel) : (s.setReg r v).buf k = s.buf k := by
  cases k <;> rfl

@[simp] theorem State.reg_answered (d : Word) (r : Reg) : (s.answered d).reg r = s.reg r := rfl

@[simp] theorem State.buf_answered (d : Word) (k : BufSel) : (s.answered d).buf k = s.buf k := by
  cases k <;> rfl

@[simp] theorem State.reg_faulted (f : FaultCode) (i : Nat) (r : Reg) : (s.faulted f i).reg r = s.reg r := rfl

@[simp] theorem State.buf_faulted (f : FaultCode) (i : Nat) (k : BufSel) : (s.faulted f i).buf k = s.buf k := by
  cases k <;> rfl

end Sys2Proof.Machine
end

