-- ==== Sys2Proof/Laws/Memory.lean ====
section
/-! SUPPORT. The laws of a buffer's bytes: reads after writes, and that every operation keeps the canonical form. -/

namespace Sys2Proof.Machine

/-! ## Reading -/

@[simp] theorem Memory.read_nil (a : Nat) : Memory.read [] a = Memory.unlisted := rfl

/-- Where every listed index is past `a`, `a` reads as unlisted. -/
theorem Memory.read_of_lt {m : Memory} {a : Nat} (h : ∀ c ∈ m, a < c.1) : m.read a = Memory.unlisted := by
  induction m with
  | nil => rfl
  | cons c m ih =>
    have := h c (by simp)
    have hne : c.1 ≠ a := by omega
    simp only [Memory.read, hne, if_false]
    exact ih fun d hd => h d (by simp [hd])

/-- Reading after an entry is put in front. -/
theorem Memory.read_cons {m : Memory} {a : Nat} (h : ∀ c ∈ m, a < c.1) (b : Byte) (n : Nat) :
    (Memory.cons a b m).read n = if n = a then b else m.read n := by
  unfold Memory.cons
  split
  · next hb =>
    split
    · next hn => rw [hn, Memory.read_of_lt h, hb]
    · rfl
  · simp only [Memory.read, eq_comm]

/-- Read after write: the byte written at `a`, every other byte as it was. -/
theorem Memory.read_write {m : Memory} (h : m.wf) (a : Nat) (v : Byte) (n : Nat) :
    (m.write a v).read n = if n = a then v else m.read n := by
  induction m with
  | nil => simpa [Memory.write] using Memory.read_cons (m := []) (by simp) v n
  | cons c m ih =>
    obtain ⟨i, b⟩ := c
    obtain ⟨hp, hb⟩ := h
    obtain ⟨hlt, hp'⟩ := List.pairwise_cons.1 hp
    unfold Memory.write
    split
    · next hai =>
      refine Memory.read_cons ?_ v n
      intro d hd
      rcases List.mem_cons.1 hd with rfl | hd
      · exact hai
      · exact hai.trans (hlt d hd)
    · split
      · next hia =>
        subst hia
        rw [Memory.read_cons hlt]
        simp only [Memory.read]
        split <;> simp_all [eq_comm]
      · next hia =>
        have ih' := ih ⟨hp', fun d hd => hb d (by simp [hd])⟩
        simp only [Memory.read, ih']
        split
        · next h1 => subst h1; simp [hia]
        · rfl

/-! ## The canonical form -/

@[simp] theorem Memory.wf_nil : Memory.wf [] := by simp [Memory.wf]

/-- Every entry of a memory with an entry put in front is that entry or an old one. -/
theorem Memory.mem_cons {m : Memory} {a : Nat} {b : Byte} {c : Host.Cell} (h : c ∈ Memory.cons a b m) :
    c.1 = a ∨ c ∈ m := by
  unfold Memory.cons at h
  split at h
  · exact .inr h
  · rcases List.mem_cons.1 h with rfl | h
    · exact .inl rfl
    · exact .inr h

/-- Putting an entry in front of later ones keeps the canonical form. -/
theorem Memory.wf_cons {m : Memory} (hm : m.wf) {a : Nat} (h : ∀ c ∈ m, a < c.1) (b : Byte) :
    (Memory.cons a b m).wf := by
  unfold Memory.cons
  split
  · exact hm
  · next hb =>
    refine ⟨List.pairwise_cons.2 ⟨h, hm.1⟩, ?_⟩
    intro c hc
    rcases List.mem_cons.1 hc with rfl | hc
    · exact hb
    · exact hm.2 c hc

/-- Every entry after a write is the one written or an old one. -/
theorem Memory.mem_write {m : Memory} {a : Nat} {v : Byte} {c : Host.Cell} (h : c ∈ m.write a v) :
    c.1 = a ∨ c ∈ m := by
  induction m with
  | nil => exact Memory.mem_cons h
  | cons d m ih =>
    obtain ⟨i, b⟩ := d
    unfold Memory.write at h
    split at h
    · exact Memory.mem_cons h
    · split at h
      · rcases Memory.mem_cons h with h | h
        · exact .inl h
        · exact .inr (by simp [h])
      · rcases List.mem_cons.1 h with rfl | h
        · exact .inr (by simp)
        · rcases ih h with h | h
          · exact .inl h
          · exact .inr (by simp [h])

/-- A write keeps the canonical form. -/
theorem Memory.wf_write {m : Memory} (hm : m.wf) (a : Nat) (v : Byte) : (m.write a v).wf := by
  induction m with
  | nil => exact Memory.wf_cons Memory.wf_nil (by simp) v
  | cons d m ih =>
    obtain ⟨i, b⟩ := d
    obtain ⟨hlt, hp⟩ := List.pairwise_cons.1 hm.1
    have hm' : Memory.wf m := ⟨hp, fun c hc => hm.2 c (by simp [hc])⟩
    unfold Memory.write
    split
    · next hai =>
      refine Memory.wf_cons hm ?_ v
      intro c hc
      rcases List.mem_cons.1 hc with rfl | hc
      · exact hai
      · exact hai.trans (hlt c hc)
    · split
      · next hia =>
        subst hia
        exact Memory.wf_cons hm' hlt v
      · next hai hia =>
        refine ⟨List.pairwise_cons.2 ⟨?_, (ih hm').1⟩, ?_⟩
        · intro c hc
          rcases Memory.mem_write hc with hc | hc
          · show i < c.1
            omega
          · exact hlt c hc
        · intro c hc
          rcases List.mem_cons.1 hc with rfl | hc
          · exact hm.2 _ (by simp)
          · exact (ih hm').2 c hc

/-- Two canonical memories that read the same everywhere are the same data. -/
theorem Memory.ext_read {m n : Memory} (hm : m.wf) (hn : n.wf) (h : ∀ a, m.read a = n.read a) : m = n := by
  induction m generalizing n with
  | nil =>
    cases n with
    | nil => rfl
    | cons d n =>
      have := h d.1
      simp only [Memory.read, if_true] at this
      exact absurd this.symm (hn.2 d (by simp))
  | cons c m ih =>
    cases n with
    | nil =>
      have := h c.1
      simp only [Memory.read, if_true] at this
      exact absurd this (hm.2 c (by simp))
    | cons d n =>
      obtain ⟨i, b⟩ := c
      obtain ⟨j, e⟩ := d
      obtain ⟨hlm, hpm⟩ := List.pairwise_cons.1 hm.1
      obtain ⟨hln, hpn⟩ := List.pairwise_cons.1 hn.1
      have hij : i = j := by
        rcases Nat.lt_trichotomy i j with hlt | heq | hgt
        · have hb := h i
          have hnone : Memory.read ((j, e) :: n) i = Memory.unlisted := by
            refine Memory.read_of_lt fun c hc => ?_
            rcases List.mem_cons.1 hc with rfl | hc
            · exact hlt
            · exact hlt.trans (hln c hc)
          rw [hnone] at hb
          simp only [Memory.read, if_true] at hb
          exact absurd hb (hm.2 (i, b) (by simp))
        · exact heq
        · have hb := h j
          have hnone : Memory.read ((i, b) :: m) j = Memory.unlisted := by
            refine Memory.read_of_lt fun c hc => ?_
            rcases List.mem_cons.1 hc with rfl | hc
            · exact hgt
            · exact hgt.trans (hlm c hc)
          rw [hnone] at hb
          simp only [Memory.read, if_true] at hb
          exact absurd hb.symm (hn.2 (j, e) (by simp))
      subst hij
      have hbe : b = e := by simpa [Memory.read] using h i
      subst hbe
      congr 1
      refine ih ⟨hpm, fun c hc => hm.2 c (by simp [hc])⟩ ⟨hpn, fun c hc => hn.2 c (by simp [hc])⟩ fun a => ?_
      have ha := h a
      simp only [Memory.read] at ha
      split at ha
      · next hia =>
        subst hia
        rw [Memory.read_of_lt hlm, Memory.read_of_lt hln]
      · exact ha

/-! ## Byte sequences -/

@[simp] theorem Memory.length_readBytes (m : Memory) (a n : Nat) : (m.readBytes a n).length = n := by
  induction n generalizing a with
  | zero => rfl
  | succ n ih => simp [Memory.readBytes, ih]

/-- Byte `i` of a byte sequence read from index `a` is the byte at index `a + i`. -/
theorem Memory.getElem?_readBytes (m : Memory) (a n i : Nat) (h : i < n) :
    (m.readBytes a n)[i]? = some (m.read (a + i)) := by
  induction n generalizing a i with
  | zero => omega
  | succ n ih =>
    cases i with
    | zero => simp [Memory.readBytes]
    | succ i =>
      simp only [Memory.readBytes, List.getElem?_cons_succ]
      rw [ih (a + 1) i (by omega)]
      congr 2
      omega

/-- Two memories that read the same from `a` on for `n` bytes give the same byte sequence. -/
theorem Memory.readBytes_congr {m k : Memory} {a n : Nat} (h : ∀ i, a ≤ i → i < a + n → m.read i = k.read i) :
    m.readBytes a n = k.readBytes a n := by
  induction n generalizing a with
  | zero => rfl
  | succ n ih =>
    simp only [Memory.readBytes]
    rw [h a (by omega) (by omega), ih fun i h1 h2 => h i (by omega) (by omega)]

/-- A byte sequence read in two pieces. -/
theorem Memory.readBytes_add (m : Memory) (a n k : Nat) :
    m.readBytes a (n + k) = m.readBytes a n ++ m.readBytes (a + n) k := by
  induction n generalizing a with
  | zero => simp [Memory.readBytes]
  | succ n ih =>
    rw [show n + 1 + k = (n + k) + 1 by omega]
    simp only [Memory.readBytes, List.cons_append]
    rw [ih (a + 1), show a + 1 + n = a + (n + 1) by omega]

/-- Writing a byte sequence keeps the canonical form. -/
theorem Memory.wf_writeBytes {m : Memory} (hm : m.wf) (a : Nat) (s : List Byte) : (m.writeBytes a s).wf := by
  induction s generalizing m a with
  | nil => exact hm
  | cons b s ih => exact ih (Memory.wf_write hm a b) (a + 1)

/-- Every entry after a byte sequence is written is in the range written or an old one. -/
theorem Memory.mem_writeBytes {m : Memory} {a : Nat} {s : List Byte} {c : Host.Cell} (h : c ∈ m.writeBytes a s) :
    (a ≤ c.1 ∧ c.1 < a + s.length) ∨ c ∈ m := by
  induction s generalizing m a with
  | nil => exact .inr h
  | cons b s ih =>
    simp only [List.length_cons]
    rcases ih h with h | h
    · exact .inl (by omega)
    · rcases Memory.mem_write h with h | h
      · exact .inl (by omega)
      · exact .inr h

/-- Read after `MemWrite`: the bytes written at their indices, every other byte as it was. -/
theorem Memory.read_writeBytes {m : Memory} (hm : m.wf) (a : Nat) (s : List Byte) (n : Nat) :
    (m.writeBytes a s).read n = if a ≤ n ∧ n < a + s.length then s.getD (n - a) 0 else m.read n := by
  induction s generalizing m a with
  | nil =>
    have : ¬(a ≤ n ∧ n < a + 0) := by omega
    simp only [Memory.writeBytes, List.length_nil, this, if_false]
  | cons b s ih =>
    simp only [Memory.writeBytes, List.length_cons]
    rw [ih (Memory.wf_write hm a b), Memory.read_write hm]
    by_cases h1 : n = a
    · subst h1
      simp
    · by_cases h2 : a + 1 ≤ n ∧ n < a + 1 + s.length
      · have h3 : a ≤ n ∧ n < a + (s.length + 1) := by omega
        simp only [h2, and_self, if_true, h3]
        rw [show n - a = (n - (a + 1)) + 1 by omega, List.getD_cons_succ]
      · have h3 : ¬(a ≤ n ∧ n < a + (s.length + 1)) := by omega
        simp only [h2, if_false, h3, h1]

/-- `MemRead` gives back what `MemWrite` wrote. -/
theorem Memory.readBytes_writeBytes {m : Memory} (hm : m.wf) (a : Nat) (s : List Byte) :
    (m.writeBytes a s).readBytes a s.length = s := by
  refine List.ext_getElem? fun i => ?_
  by_cases hi : i < s.length
  · rw [Memory.getElem?_readBytes _ _ _ _ hi, Memory.read_writeBytes hm]
    have : a ≤ a + i ∧ a + i < a + s.length := by omega
    simp [this, hi]
  · have h1 : s.length ≤ i := by omega
    simp [h1]

/-- Every entry of a memory made of a byte sequence is in its range. -/
theorem Memory.mem_ofBytes {a : Nat} {s : List Byte} {c : Host.Cell} (h : c ∈ Memory.ofBytes a s) :
    a ≤ c.1 ∧ c.1 < a + s.length := by
  induction s generalizing a with
  | nil => simp [Memory.ofBytes] at h
  | cons b s ih =>
    simp only [List.length_cons]
    rcases Memory.mem_cons h with h | h
    · omega
    · have := ih h
      omega

/-- A memory made of a byte sequence is in canonical form. -/
theorem Memory.wf_ofBytes (a : Nat) (s : List Byte) : (Memory.ofBytes a s).wf := by
  induction s generalizing a with
  | nil => exact Memory.wf_nil
  | cons b s ih =>
    refine Memory.wf_cons (ih (a + 1)) (fun c hc => ?_) b
    have := Memory.mem_ofBytes hc
    omega

/-- A memory made of a byte sequence reads as it. -/
theorem Memory.read_ofBytes (a : Nat) (s : List Byte) (n : Nat) :
    (Memory.ofBytes a s).read n = if a ≤ n ∧ n < a + s.length then s.getD (n - a) 0 else Memory.unlisted := by
  induction s generalizing a with
  | nil =>
    have : ¬(a ≤ n ∧ n < a + 0) := by omega
    simp only [Memory.ofBytes, List.length_nil, this, if_false, Memory.read_nil]
  | cons b s ih =>
    simp only [Memory.ofBytes, List.length_cons]
    rw [Memory.read_cons (fun c hc => by have := Memory.mem_ofBytes hc; omega), ih]
    by_cases h1 : n = a
    · subst h1
      simp
    · by_cases h2 : a + 1 ≤ n ∧ n < a + 1 + s.length
      · have h3 : a ≤ n ∧ n < a + (s.length + 1) := by omega
        simp only [h2, and_self, if_true, h3, h1, if_false]
        rw [show n - a = (n - (a + 1)) + 1 by omega, List.getD_cons_succ]
      · have h3 : ¬(a ≤ n ∧ n < a + (s.length + 1)) := by omega
        simp only [h2, if_false, h3, h1]

/-- A memory made of a byte sequence gives it back. -/
theorem Memory.readBytes_ofBytes (s : List Byte) : (Memory.ofBytes 0 s).readBytes 0 s.length = s := by
  refine List.ext_getElem? fun i => ?_
  by_cases hi : i < s.length
  · rw [Memory.getElem?_readBytes _ _ _ _ hi, Memory.read_ofBytes]
    simp [hi]
  · have h1 : s.length ≤ i := by omega
    simp [h1]

end Sys2Proof.Machine
end

