-- ==== Sys2Proof/Laws/Ops.lean ====
section
/-! SUPPORT. What each shared operation can do, said once: the end of a command, buffer accesses, output
replacement, and how they keep the invariant of a buffer (R21). -/

namespace Sys2Proof.Machine

/-! ## The end of a command -/

@[simp] theorem finish_ok (s t : State) : finish s (.ok t) = .next (t.answered 0) := rfl

@[simp] theorem finish_error (s : State) (f : FaultCode) (i : Nat) :
    finish s (.error (f, i)) = .next (s.faulted f i) := rfl

@[simp] theorem finish_outOfRange (s : State) (b : Buffer) (n : Nat) :
    finish s (.error (outOfRange b n)) = .next (s.faulted .outOfRange (n <<< 16 ||| b.off)) := rfl

@[simp] theorem answer_eq (d : Word) (s : State) : answer d s = .next (s.answered d) := rfl

@[simp] theorem raise_eq (f : FaultCode) (i : Nat) (s : State) : raise f i s = .next (s.faulted f i) := rfl

/-- A command ends in exactly one of two ways: its body completed, or it raised a fault and left all else alone. -/
theorem finish_cases {s t : State} {e : Effect} (h : finish s e = .next t) :
    (∃ u, e = .ok u ∧ t = u.answered 0) ∨ ∃ f i, e = .error (f, i) ∧ t = s.faulted f i := by
  cases e with
  | ok u => exact .inl ⟨u, rfl, by simpa using h.symm⟩
  | error p => exact .inr ⟨p.1, p.2, rfl, by simpa [finish] using h.symm⟩

/-- The body of a command always ends in a next state. -/
theorem finish_next (s : State) (e : Effect) : ∃ t, finish s e = .next t := by
  cases e with
  | ok u => exact ⟨_, rfl⟩
  | error p => exact ⟨_, rfl⟩

/-- The state that `raise` leaves is as R203 lists it. -/
theorem State.faulted_faultedAs (s : State) (f : FaultCode) (i : Nat) : FaultedAs f i s (s.faulted f i) := by
  simp [FaultedAs, SameRegs, SameSums, SameFcs, SameBufs, SameBuf, SamePort, Status.withErr]

/-! ## Buffer accesses -/

/-- `putBytes` completes exactly when the bytes fit. -/
theorem putBytes_fits {k : BufSel} {bytes : List Byte} {s : State}
    (h : (s.buf k).off + bytes.length ≤ (s.buf k).len) :
    putBytes k bytes s = .ok (s.setBuf k ((s.buf k).put bytes)) := by
  have : ¬(s.buf k).off + bytes.length > (s.buf k).len := by omega
  simp only [putBytes, this, if_false]

/-- `putBytes` raises `OutOfRange` exactly when they do not. -/
theorem putBytes_full {k : BufSel} {bytes : List Byte} {s : State}
    (h : (s.buf k).off + bytes.length > (s.buf k).len) :
    putBytes k bytes s = .error (outOfRange (s.buf k) bytes.length) := by
  simp only [putBytes, h, if_true]

/-- `replaceD` completes exactly when the bytes fit. -/
theorem replaceD_fits {bytes : List Byte} {s : State} (h : bytes.length ≤ s.config.cap) :
    replaceD bytes s = .ok { s with bufD := Buffer.ofBytes bytes } := by
  have : ¬bytes.length > s.config.cap := by omega
  simp only [replaceD, this, if_false]

/-- `replaceD` raises `Capacity` exactly when they do not. -/
theorem replaceD_full {bytes : List Byte} {s : State} (h : bytes.length > s.config.cap) :
    replaceD bytes s = .error (.capacity, bytes.length) := by
  simp only [replaceD, h, if_true]

/-- What `putBytes` can do: the bytes fitted and it wrote them, or they did not and it raised `OutOfRange`. -/
theorem putBytes_cases (k : BufSel) (bytes : List Byte) (s : State) :
    ((s.buf k).off + bytes.length ≤ (s.buf k).len ∧
      putBytes k bytes s = .ok (s.setBuf k ((s.buf k).put bytes))) ∨
    ((s.buf k).off + bytes.length > (s.buf k).len ∧
      putBytes k bytes s = .error (outOfRange (s.buf k) bytes.length)) := by
  rcases Nat.lt_or_ge (s.buf k).len ((s.buf k).off + bytes.length) with h | h
  · exact .inr ⟨h, putBytes_full h⟩
  · exact .inl ⟨h, putBytes_fits h⟩

/-- What `replaceD` can do: the bytes fitted and `D` is exactly them, or they did not and it raised `Capacity`. -/
theorem replaceD_cases (bytes : List Byte) (s : State) :
    (bytes.length ≤ s.config.cap ∧ replaceD bytes s = .ok { s with bufD := Buffer.ofBytes bytes }) ∨
    (bytes.length > s.config.cap ∧ replaceD bytes s = .error (.capacity, bytes.length)) := by
  rcases Nat.lt_or_ge s.config.cap bytes.length with h | h
  · exact .inr ⟨h, replaceD_full h⟩
  · exact .inl ⟨h, replaceD_fits h⟩

/-- What a write to a control register can do (R24). -/
theorem State.writeCsr_cases {s t : State} {c : Csr} {v : Word} (h : s.writeCsr c v = some t) :
    (c = .crc ∧ t = { s with crc := v.setWidth 16 }) ∨ (c = .lrc ∧ t = { s with lrc := v.setWidth 8 }) := by
  cases c <;> simp_all [State.writeCsr]

@[simp] theorem Buffer.put_len (b : Buffer) (s : List Byte) : (b.put s).len = b.len := rfl
@[simp] theorem Buffer.put_off (b : Buffer) (s : List Byte) : (b.put s).off = b.off + s.length := rfl
@[simp] theorem Buffer.put_bytes (b : Buffer) (s : List Byte) : (b.put s).bytes = b.bytes.writeBytes b.off s := rfl
@[simp] theorem Buffer.ofBytes_len (s : List Byte) : (Buffer.ofBytes s).len = s.length := rfl
@[simp] theorem Buffer.ofBytes_off (s : List Byte) : (Buffer.ofBytes s).off = s.length := rfl
@[simp] theorem Buffer.zeros_len (n : Nat) : (Buffer.zeros n).len = n := rfl
@[simp] theorem Buffer.zeros_off (n : Nat) : (Buffer.zeros n).off = 0 := rfl
@[simp] theorem Buffer.zeros_read (n a : Nat) : (Buffer.zeros n).bytes.read a = 0 := rfl

@[simp] theorem Buffer.length_span (b : Buffer) : b.span.length = b.off := by simp [Buffer.span]

@[simp] theorem Buffer.length_contents (b : Buffer) : b.contents.length = b.len := by simp [Buffer.contents]

/-- After an output replacement the span is the byte sequence (R45). -/
@[simp] theorem Buffer.span_ofBytes (s : List Byte) : (Buffer.ofBytes s).span = s := Memory.readBytes_ofBytes s

/-- After an output replacement the contents are the byte sequence (R45). -/
@[simp] theorem Buffer.contents_ofBytes (s : List Byte) : (Buffer.ofBytes s).contents = s :=
  Memory.readBytes_ofBytes s

/-- The bytes written at the cursor end the new span (R43, R44). -/
theorem Buffer.span_put {b : Buffer} (h : b.bytes.wf) (s : List Byte) : (b.put s).span = b.span ++ s := by
  simp only [Buffer.span, Buffer.put, Memory.readBytes_add, Nat.zero_add, Memory.readBytes_writeBytes h]
  congr 1
  refine Memory.readBytes_congr fun i _ hi => ?_
  rw [Memory.read_writeBytes h]
  have : ¬(b.off ≤ i ∧ i < b.off + s.length) := by omega
  simp only [this, if_false]

/-! ## The invariant of a buffer -/

theorem BufferOk.zeros {cap n : Nat} (h : n ≤ cap) : BufferOk cap (Buffer.zeros n) :=
  ⟨Nat.zero_le n, h, Memory.wf_nil, by simp [Buffer.zeros]⟩

theorem BufferOk.ofBytes {cap : Nat} {s : List Byte} (h : s.length ≤ cap) : BufferOk cap (Buffer.ofBytes s) := by
  refine ⟨le_refl _, h, Memory.wf_ofBytes 0 s, fun c hc => ?_⟩
  have := Memory.mem_ofBytes hc
  simp only [Buffer.ofBytes]
  omega

theorem BufferOk.put {cap : Nat} {b : Buffer} (h : BufferOk cap b) {s : List Byte} (hs : b.off + s.length ≤ b.len) :
    BufferOk cap (b.put s) := by
  obtain ⟨_, h2, h3, h4⟩ := h
  refine ⟨hs, h2, Memory.wf_writeBytes h3 _ _, fun c hc => ?_⟩
  simp only [Buffer.put_len]
  rcases Memory.mem_writeBytes hc with hc | hc
  · omega
  · exact h4 c hc

theorem BufferOk.seek {cap : Nat} {b : Buffer} (h : BufferOk cap b) {o : Nat} (ho : o ≤ b.len) :
    BufferOk cap { b with off := o } :=
  ⟨ho, h.2⟩

end Sys2Proof.Machine
end

