-- ==== Sys2Proof/Laws/Functions.lean ====
section
/-! SUPPORT. What the unit functions compute, bit by bit and byte by byte. -/

namespace Sys2Proof.Machine

/-! ## Bit fields -/

/-- Bit `i` of an extracted range (R120). -/
theorem testBit_extractBits (v cnt start i : Nat) :
    (extractBits v cnt start).testBit i = (decide (i < cnt) && v.testBit (start + i)) := by
  rw [extractBits, Nat.one_shiftLeft, Nat.testBit_and, Nat.testBit_shiftRight, Nat.testBit_two_pow_sub_one,
    Bool.and_comm]

/-- Bit `i` with some bits cleared (R121). -/
theorem testBit_clearBits (v m i : Nat) : (clearBits v m).testBit i = (v.testBit i && !m.testBit i) := by
  rw [clearBits, Nat.testBit_xor, Nat.testBit_and]
  cases v.testBit i <;> cases m.testBit i <;> rfl

/-- Bit `i` of a value with a range filled (R121). -/
theorem testBit_fillBits (v cnt start new i : Nat) :
    (fillBits v cnt start new).testBit i =
      if start ≤ i ∧ i < start + cnt then new.testBit (i - start) else v.testBit i := by
  simp only [fillBits, Nat.one_shiftLeft, Nat.testBit_or, testBit_clearBits, Nat.testBit_shiftLeft,
    Nat.testBit_and, Nat.testBit_two_pow_sub_one]
  by_cases h1 : start ≤ i
  · by_cases h2 : i < start + cnt
    · have : i - start < cnt := by omega
      simp [h1, h2, this]
    · have : ¬i - start < cnt := by omega
      simp [h1, h2, this]
  · simp [h1]

/-! ## The mask table -/

/-- `heldElsewhere` finds a position in an entry other than `idx`, entries being counted from `i` (R131). -/
theorem heldElsewhere_iff (idx pos : Nat) (mt : List (Option Nat)) (i : Nat) :
    heldElsewhere idx pos mt i = true ↔ ∃ j, j + i ≠ idx ∧ mt[j]? = some (some pos) := by
  induction mt generalizing i with
  | nil => simp [heldElsewhere]
  | cons e mt ih =>
    simp only [heldElsewhere, Bool.or_eq_true, Bool.and_eq_true, beq_iff_eq, bne_iff_ne, ih]
    constructor
    · rintro (⟨rfl, h⟩ | ⟨j, h, h'⟩)
      · exact ⟨0, by omega, by simp⟩
      · exact ⟨j + 1, by omega, by simpa using h'⟩
    · rintro ⟨j, h, h'⟩
      cases j with
      | zero => exact .inl ⟨by simpa using h', by omega⟩
      | succ j => exact .inr ⟨j, by omega, by simpa using h'⟩

/-! ## CRC-16 -/

@[simp] theorem crcFold_nil (c : BitVec 16) : crcFold c [] = c := rfl

@[simp] theorem crcFold_cons (c : BitVec 16) (b : Byte) (s : List Byte) :
    crcFold c (b :: s) = crcFold (crcStep c b) s := rfl

/-- A checksum can be computed in pieces (R151). -/
theorem crcFold_append (c : BitVec 16) (s t : List Byte) : crcFold c (s ++ t) = crcFold (crcFold c s) t := by
  induction s generalizing c with
  | nil => rfl
  | cons b s ih => exact ih _

/-! ## Byte stuffing -/

@[simp] theorem stuff_nil : stuff [] = [] := rfl

@[simp] theorem stuff_cons (b : Byte) (s : List Byte) : stuff (b :: s) = stuffByte b ++ stuff s := rfl

/-- A byte is stuffed as an escape sequence that restores to it, or as itself, not being the escape byte (R170, R171). -/
theorem stuffByte_cases (b : Byte) :
    (∃ t, stuffByte b = [escapeByte, t] ∧ restore t = some b ∧ t ∉ [0x7E, 0x7D, 0x11, 0x13]) ∨
      (stuffByte b = [b] ∧ b ∉ [0x7E, 0x7D, 0x11, 0x13]) := by
  by_cases h1 : b = 0x7E
  · subst h1; exact .inl ⟨0x5E, by decide⟩
  by_cases h2 : b = 0x7D
  · subst h2; exact .inl ⟨0x5D, by decide⟩
  by_cases h3 : b = 0x11
  · subst h3; exact .inl ⟨0x31, by decide⟩
  by_cases h4 : b = 0x13
  · subst h4; exact .inl ⟨0x33, by decide⟩
  refine .inr ⟨by simp only [stuffByte, substitute, h1, h2, h3, h4, if_false], ?_⟩
  simp only [List.mem_cons, List.not_mem_nil, or_false, not_or]
  exact ⟨h1, h2, h3, h4⟩

end Sys2Proof.Machine
end

