-- ==== Sys2Proof/Laws/PerInstr.lean ====
section
/-! SUPPORT. The family `EncodeForm`, made per instruction: every command's word is assembled from fields that fit their
widths (R61, R62), so that no field of it spills into another. -/

namespace Sys2Proof.Laws

/-- The word of a command is assembled from fields within their widths. -/
def EncodeForm.Statement (i : Instr) : Prop :=
  ∃ op ra rb rc k cnt low, FieldsFit op ra rb rc k cnt low ∧ encode i = assemble op ra rb rc k cnt low

theorem EncodeForm.nop : EncodeForm.Statement .nop := by
  refine ⟨0x00, 0, 0, 0, 0, 0, 0, ⟨?_, ?_, ?_, ?_, ?_, ?_⟩, rfl⟩ <;> norm_num

theorem EncodeForm.rst : EncodeForm.Statement .rst := by
  refine ⟨0x01, 0, 0, 0, 0, 0, 0, ⟨?_, ?_, ?_, ?_, ?_, ?_⟩, rfl⟩ <;> norm_num

theorem EncodeForm.setx (rd : Reg) : EncodeForm.Statement (.setx rd) := by
  have h0 := rd.number_lt
  refine ⟨0x02, rd.number, 0, 0, 0, 0, 0, ⟨?_, ?_, ?_, ?_, ?_, ?_⟩, rfl⟩ <;> first | (norm_num; done) | omega

theorem EncodeForm.getx (rs : Reg) : EncodeForm.Statement (.getx rs) := by
  have h0 := rs.number_lt
  refine ⟨0x03, rs.number, 0, 0, 0, 0, 0, ⟨?_, ?_, ?_, ?_, ?_, ?_⟩, rfl⟩ <;> first | (norm_num; done) | omega

theorem EncodeForm.csrr (rd : Reg) (csr : Byte) : EncodeForm.Statement (.csrr rd csr) := by
  have h0 := rd.number_lt
  have h1 := csr.isLt
  refine ⟨0x04, rd.number, 0, 0, 0, 0, csr.toNat, ⟨?_, ?_, ?_, ?_, ?_, ?_⟩, rfl⟩ <;> omega

theorem EncodeForm.csrw (rs : Reg) (csr : Byte) : EncodeForm.Statement (.csrw rs csr) := by
  have h0 := rs.number_lt
  have h1 := csr.isLt
  refine ⟨0x05, rs.number, 0, 0, 0, 0, csr.toNat, ⟨?_, ?_, ?_, ?_, ?_, ?_⟩, rfl⟩ <;> omega

theorem EncodeForm.bnew (k : BufSel) (n : BitVec 16) : EncodeForm.Statement (.bnew k n) := by
  have h0 := k.number_lt
  have h1 := n.isLt
  refine ⟨0x10, 0, 0, 0, k.number, 0, n.toNat, ⟨?_, ?_, ?_, ?_, ?_, ?_⟩, rfl⟩ <;> omega

theorem EncodeForm.bput (k : BufSel) (b : Byte) : EncodeForm.Statement (.bput k b) := by
  have h0 := k.number_lt
  have h1 := b.isLt
  refine ⟨0x11, 0, 0, 0, k.number, 0, b.toNat, ⟨?_, ?_, ?_, ?_, ?_, ?_⟩, rfl⟩ <;> omega

theorem EncodeForm.bget (rd : Reg) (k : BufSel) : EncodeForm.Statement (.bget rd k) := by
  have h0 := rd.number_lt
  have h1 := k.number_lt
  refine ⟨0x12, rd.number, 0, 0, k.number, 0, 0, ⟨?_, ?_, ?_, ?_, ?_, ?_⟩, rfl⟩ <;> first | (norm_num; done) | omega

theorem EncodeForm.bseek (k : BufSel) (pos : BitVec 16) : EncodeForm.Statement (.bseek k pos) := by
  have h0 := k.number_lt
  have h1 := pos.isLt
  refine ⟨0x13, 0, 0, 0, k.number, 0, pos.toNat, ⟨?_, ?_, ?_, ?_, ?_, ?_⟩, rfl⟩ <;> omega

theorem EncodeForm.bswap : EncodeForm.Statement .bswap := by
  refine ⟨0x14, 0, 0, 0, 0, 0, 0, ⟨?_, ?_, ?_, ?_, ?_, ?_⟩, rfl⟩ <;> norm_num

theorem EncodeForm.bputx (rs : Reg) (k : BufSel) : EncodeForm.Statement (.bputx rs k) := by
  have h0 := rs.number_lt
  have h1 := k.number_lt
  refine ⟨0x15, rs.number, 0, 0, k.number, 0, 0, ⟨?_, ?_, ?_, ?_, ?_, ?_⟩, rfl⟩ <;> first | (norm_num; done) | omega

theorem EncodeForm.bfext (rd : Reg) (rs1 : Reg) (cnt : BitVec 7) (start : BitVec 7) : EncodeForm.Statement (.bfext rd rs1 cnt start) := by
  have h0 := rd.number_lt
  have h1 := rs1.number_lt
  have h2 := cnt.isLt
  have h3 := start.isLt
  refine ⟨0x20, rd.number, rs1.number, 0, 0, cnt.toNat, start.toNat, ⟨?_, ?_, ?_, ?_, ?_, ?_⟩, rfl⟩ <;> omega

theorem EncodeForm.bffill (rd : Reg) (rs1 : Reg) (rs2 : Reg) (cnt : BitVec 7) (start : BitVec 7) : EncodeForm.Statement (.bffill rd rs1 rs2 cnt start) := by
  have h0 := rd.number_lt
  have h1 := rs1.number_lt
  have h2 := rs2.number_lt
  have h3 := cnt.isLt
  have h4 := start.isLt
  refine ⟨0x21, rd.number, rs1.number, rs2.number, 0, cnt.toNat, start.toNat, ⟨?_, ?_, ?_, ?_, ?_, ?_⟩, rfl⟩ <;> omega

theorem EncodeForm.mtclr : EncodeForm.Statement .mtclr := by
  refine ⟨0x22, 0, 0, 0, 0, 0, 0, ⟨?_, ?_, ?_, ?_, ?_, ?_⟩, rfl⟩ <;> norm_num

theorem EncodeForm.mtset (idx : BitVec 7) (pos : BitVec 7) : EncodeForm.Statement (.mtset idx pos) := by
  have h0 := idx.isLt
  have h1 := pos.isLt
  refine ⟨0x23, 0, 0, 0, 0, idx.toNat, pos.toNat, ⟨?_, ?_, ?_, ?_, ?_, ?_⟩, rfl⟩ <;> omega

theorem EncodeForm.flpack (rd : Reg) (rs1 : Reg) : EncodeForm.Statement (.flpack rd rs1) := by
  have h0 := rd.number_lt
  have h1 := rs1.number_lt
  refine ⟨0x24, rd.number, rs1.number, 0, 0, 0, 0, ⟨?_, ?_, ?_, ?_, ?_, ?_⟩, rfl⟩ <;> first | (norm_num; done) | omega

theorem EncodeForm.flunpk (rd : Reg) (rs1 : Reg) : EncodeForm.Statement (.flunpk rd rs1) := by
  have h0 := rd.number_lt
  have h1 := rs1.number_lt
  refine ⟨0x25, rd.number, rs1.number, 0, 0, 0, 0, ⟨?_, ?_, ?_, ?_, ?_, ?_⟩, rfl⟩ <;> first | (norm_num; done) | omega

theorem EncodeForm.extenc (rs : Reg) : EncodeForm.Statement (.extenc rs) := by
  have h0 := rs.number_lt
  refine ⟨0x30, rs.number, 0, 0, 0, 0, 0, ⟨?_, ?_, ?_, ?_, ?_, ?_⟩, rfl⟩ <;> first | (norm_num; done) | omega

theorem EncodeForm.extdec (rd : Reg) : EncodeForm.Statement (.extdec rd) := by
  have h0 := rd.number_lt
  refine ⟨0x31, rd.number, 0, 0, 0, 0, 0, ⟨?_, ?_, ?_, ?_, ?_, ?_⟩, rfl⟩ <;> first | (norm_num; done) | omega

theorem EncodeForm.crcinit : EncodeForm.Statement .crcinit := by
  refine ⟨0x40, 0, 0, 0, 0, 0, 0, ⟨?_, ?_, ?_, ?_, ?_, ?_⟩, rfl⟩ <;> norm_num

theorem EncodeForm.crcupd (b : Byte) : EncodeForm.Statement (.crcupd b) := by
  have h0 := b.isLt
  refine ⟨0x41, 0, 0, 0, 0, 0, b.toNat, ⟨?_, ?_, ?_, ?_, ?_, ?_⟩, rfl⟩ <;> omega

theorem EncodeForm.crcbuf : EncodeForm.Statement .crcbuf := by
  refine ⟨0x42, 0, 0, 0, 0, 0, 0, ⟨?_, ?_, ?_, ?_, ?_, ?_⟩, rfl⟩ <;> norm_num

theorem EncodeForm.crcget (rd : Reg) : EncodeForm.Statement (.crcget rd) := by
  have h0 := rd.number_lt
  refine ⟨0x43, rd.number, 0, 0, 0, 0, 0, ⟨?_, ?_, ?_, ?_, ?_, ?_⟩, rfl⟩ <;> first | (norm_num; done) | omega

theorem EncodeForm.lrcinit : EncodeForm.Statement .lrcinit := by
  refine ⟨0x48, 0, 0, 0, 0, 0, 0, ⟨?_, ?_, ?_, ?_, ?_, ?_⟩, rfl⟩ <;> norm_num

theorem EncodeForm.lrcseed (b : Byte) : EncodeForm.Statement (.lrcseed b) := by
  have h0 := b.isLt
  refine ⟨0x49, 0, 0, 0, 0, 0, b.toNat, ⟨?_, ?_, ?_, ?_, ?_, ?_⟩, rfl⟩ <;> omega

theorem EncodeForm.lrcupd (b : Byte) : EncodeForm.Statement (.lrcupd b) := by
  have h0 := b.isLt
  refine ⟨0x4A, 0, 0, 0, 0, 0, b.toNat, ⟨?_, ?_, ?_, ?_, ?_, ?_⟩, rfl⟩ <;> omega

theorem EncodeForm.lrcbuf : EncodeForm.Statement .lrcbuf := by
  refine ⟨0x4B, 0, 0, 0, 0, 0, 0, ⟨?_, ?_, ?_, ?_, ?_, ?_⟩, rfl⟩ <;> norm_num

theorem EncodeForm.lrcget (rd : Reg) : EncodeForm.Statement (.lrcget rd) := by
  have h0 := rd.number_lt
  refine ⟨0x4C, rd.number, 0, 0, 0, 0, 0, ⟨?_, ?_, ?_, ?_, ?_, ?_⟩, rfl⟩ <;> first | (norm_num; done) | omega

theorem EncodeForm.stuff : EncodeForm.Statement .stuff := by
  refine ⟨0x50, 0, 0, 0, 0, 0, 0, ⟨?_, ?_, ?_, ?_, ?_, ?_⟩, rfl⟩ <;> norm_num

theorem EncodeForm.unstuff : EncodeForm.Statement .unstuff := by
  refine ⟨0x51, 0, 0, 0, 0, 0, 0, ⟨?_, ?_, ?_, ?_, ?_, ?_⟩, rfl⟩ <;> norm_num

theorem EncodeForm.frmenc : EncodeForm.Statement .frmenc := by
  refine ⟨0x52, 0, 0, 0, 0, 0, 0, ⟨?_, ?_, ?_, ?_, ?_, ?_⟩, rfl⟩ <;> norm_num

theorem EncodeForm.frmdec : EncodeForm.Statement .frmdec := by
  refine ⟨0x53, 0, 0, 0, 0, 0, 0, ⟨?_, ?_, ?_, ?_, ?_, ?_⟩, rfl⟩ <;> norm_num

end Sys2Proof.Laws
end

