-- ==== Sys2Proof/Laws/Step.lean ====
section
/-! SUPPORT. What one step can do, said once, and a run unrolled by one step. -/

namespace Sys2Proof.Machine

/-- A step does nothing, takes a reset, runs the decoded command, or raises `IllegalCommand` (R4, R65, R230). -/
theorem step_cases {s t : State} (h : step s = .next t) :
    (s.inputs = [] ∧ t = s) ∨
    (∃ rest, s.inputs = .reset :: rest ∧ t = s.acceptReset rest) ∨
    ∃ w d rest, s.inputs = .command w d :: rest ∧
      ((∃ i, decode w = .ok i ∧ exec i (s.accept w d rest) = .next t) ∨
        ∃ e, decode w = .error e ∧ t = (s.accept w d rest).faulted .illegalCommand 0) := by
  rcases hi : s.inputs with _ | ⟨a, rest⟩
  · simp only [step, takeInput, hi] at h
    cases h
    exact .inl ⟨rfl, rfl⟩
  cases a with
  | reset =>
    simp only [step, takeInput, hi] at h
    cases h
    exact .inr (.inl ⟨rest, rfl, rfl⟩)
  | command w d =>
    refine .inr (.inr ⟨w, d, rest, rfl, ?_⟩)
    simp only [step, takeInput, hi, runCommand, State.accept_cmd] at h
    cases hd : decode w with
    | ok i =>
      rw [hd] at h
      exact .inl ⟨i, rfl, h⟩
    | error e =>
      rw [hd] at h
      exact .inr ⟨e, rfl, by simpa using h.symm⟩

/-- A run of one step more, on any machine. -/
theorem run_next {M : Host.Core} {s t : M.State} (h : M.step s = .next t) (k : Nat) : M.run (k + 1) s = M.run k t := by
  simp only [Host.Core.run, h]

end Sys2Proof.Machine
end

