-- ==== Sys2Proof/Tests/Slice0.lean ====
section
/-! SUPPORT. The model's own tests: words written out from the encoding tables, one-step vectors of
`95_test_vectors.md`, and a witness for the hypotheses of every statement. -/

namespace Sys2Proof.Machine.Tests

/-! ## Small states -/

/-- The state a command leaves. -/
def after (i : Instr) (s : State) : State :=
  match exec i s with
  | .next t => t
  | .fault _ => s
  | .refused _ => s

/-- Reset with registers `x0`, `x1`, `x2`. -/
def regs (a b c : Word) : State :=
  { State.reset with x := { x0 := a, x1 := b, x2 := c, x3 := 0 } }

/-- A buffer of the bytes `s` with the cursor at `off`. -/
def buffer (s : List Byte) (off : Nat) : Buffer :=
  { Buffer.ofBytes s with off := off }

/-- Reset with the bytes `s` in `S` and the cursor at `off`. -/
def source (s : List Byte) (off : Nat) : State :=
  { State.reset with bufS := buffer s off }

/-- A mask table with positions 0, 3, 7 in entries 0, 1, 2, and `x1 = v`. -/
def table (v : Word) : State :=
  { regs 0 v 0 with mt := [some 0, some 3, some 7] ++ List.replicate 29 none }

/-- Reset with the host's next inputs. -/
def issued (p : List HostInput) : State :=
  { State.reset with inputs := p }

/-- What a fault records: the code, the information word and the `ERR` flag. -/
def recorded (s : State) : BitVec 8 × BitVec 32 × Bool :=
  (s.fcause, s.finfo, s.status.err)

/-! ## Well-formedness (R65 (c)) -/

theorem test_wellFormed_csrr : (Instr.csrr .x0 13).wellFormed = true := by decide
theorem test_wellFormed_csrw : (Instr.csrw .x0 1).wellFormed = true := by decide
theorem test_illFormed_csrr : (Instr.csrr .x0 14).wellFormed = false := by decide
theorem test_illFormed_csrw : (Instr.csrw .x0 2).wellFormed = false := by decide

/-! ## Decoding: words written out from R61, R62 and R64, and those of `95_test_vectors.md` section 2.6 -/

theorem test_decode_system :
    decode 0x00000000#32 = .ok .nop ∧ decode 0x01000000#32 = .ok .rst ∧
    decode 0x02C00000#32 = .ok (.setx .x3) ∧ decode 0x03400000#32 = .ok (.getx .x1) ∧
    decode 0x04C0000D#32 = .ok (.csrr .x3 13) ∧ decode 0x05800001#32 = .ok (.csrw .x2 1) :=
  ⟨rfl, rfl, rfl, rfl, rfl, rfl⟩

theorem test_decode_buffer :
    decode 0x10010008#32 = .ok (.bnew .D 8) ∧ decode 0x1100002D#32 = .ok (.bput .S 0x2D) ∧
    decode 0x12C10000#32 = .ok (.bget .x3 .D) ∧ decode 0x1301FFFF#32 = .ok (.bseek .D 0xFFFF) ∧
    decode 0x14000000#32 = .ok .bswap ∧ decode 0x15C10000#32 = .ok (.bputx .x3 .D) :=
  ⟨rfl, rfl, rfl, rfl, rfl, rfl⟩

theorem test_decode_bitfield :
    decode 0x20F07F7F#32 = .ok (.bfext .x3 .x3 127 127) ∧ decode 0x20100709#32 = .ok (.bfext .x0 .x1 7 9) ∧
    decode 0x21180302#32 = .ok (.bffill .x0 .x1 .x2 3 2) ∧ decode 0x22000000#32 = .ok .mtclr ∧
    decode 0x23001F1E#32 = .ok (.mtset 31 30) ∧ decode 0x24100000#32 = .ok (.flpack .x0 .x1) ∧
    decode 0x25E00000#32 = .ok (.flunpk .x3 .x2) :=
  ⟨rfl, rfl, rfl, rfl, rfl, rfl, rfl⟩

theorem test_decode_extended :
    decode 0x30C00000#32 = .ok (.extenc .x3) ∧ decode 0x31800000#32 = .ok (.extdec .x2) :=
  ⟨rfl, rfl⟩

theorem test_decode_checksum :
    decode 0x40000000#32 = .ok .crcinit ∧ decode 0x410000A5#32 = .ok (.crcupd 0xA5) ∧
    decode 0x42000000#32 = .ok .crcbuf ∧ decode 0x43400000#32 = .ok (.crcget .x1) ∧
    decode 0x48000000#32 = .ok .lrcinit ∧ decode 0x490000FF#32 = .ok (.lrcseed 0xFF) ∧
    decode 0x4A00002D#32 = .ok (.lrcupd 0x2D) ∧ decode 0x4B000000#32 = .ok .lrcbuf ∧
    decode 0x4CC00000#32 = .ok (.lrcget .x3) :=
  ⟨rfl, rfl, rfl, rfl, rfl, rfl, rfl, rfl, rfl⟩

theorem test_decode_frame :
    decode 0x50000000#32 = .ok .stuff ∧ decode 0x51000000#32 = .ok .unstuff ∧
    decode 0x52000000#32 = .ok .frmenc ∧ decode 0x53000000#32 = .ok .frmdec :=
  ⟨rfl, rfl, rfl, rfl⟩

theorem test_decode_unknownOp :
    decode 0x06000000#32 = .error .unknownOp ∧ decode 0x4D000000#32 = .error .unknownOp ∧
    decode 0xFFFFFFFF#32 = .error .unknownOp :=
  ⟨rfl, rfl, rfl⟩

/-- One word for each format with a must-be-zero bit set (R65 (b)). -/
theorem test_decode_reservedBits :
    decode 0x00800000#32 = .error .reservedBits ∧ decode 0x03200000#32 = .error .reservedBits ∧
    decode 0x0400010A#32 = .error .reservedBits ∧ decode 0x12420000#32 = .error .reservedBits ∧
    decode 0x24040000#32 = .error .reservedBits ∧ decode 0x41800000#32 = .error .reservedBits ∧
    decode 0x11020000#32 = .error .reservedBits ∧ decode 0x10020000#32 = .error .reservedBits ∧
    decode 0x20000080#32 = .error .reservedBits ∧ decode 0x21008000#32 = .error .reservedBits ∧
    decode 0x23400000#32 = .error .reservedBits :=
  ⟨rfl, rfl, rfl, rfl, rfl, rfl, rfl, rfl, rfl, rfl, rfl⟩

theorem test_decodeTableWord : decodeTableWord 32 0x23001F1E = some (.mtset 31 30) := rfl

theorem test_withFetchWord :
    step (State.reset.withFetchWord 32 0x04000000) = exec (.csrr .x0 0) { State.reset with cmd := 0x04000000#32 } :=
  rfl

/-! ## System and buffer commands (`95_test_vectors.md` section 2.1) -/

theorem test_nop : after .nop State.reset = State.reset.answered 0 := by decide
theorem test_rst : after .rst (State.reset.faulted .outOfRange 7) = { State.reset with
    responses := [{ rdata := 0, fault := 2 }, { rdata := 0, fault := 0 }] } := by decide
theorem test_setx : (after (.setx .x3) { State.reset with wdata := 0xFFFFFFFF }).reg .x3 = 0xFFFFFFFF := by decide
theorem test_getx : (after (.getx .x1) (regs 0 0xFE 0)).responses = [{ rdata := 0xFE, fault := 0 }] := by decide
theorem test_csrr : ((after (.csrr .x3 12) State.reset).reg .x3, (after (.csrr .x0 0) State.reset).reg .x0)
    = (512, 0xFFFF) := by decide
theorem test_csrr_unassigned : recorded (after (.csrr .x0 14) State.reset) = (1, 0, true) := by decide
theorem test_csrw : ((after (.csrw .x0 0) (regs 0x12345 0 0)).crc, (after (.csrw .x0 1) (regs 0x12345 0 0)).lrc)
    = (0x2345, 0x45) := by decide
theorem test_csrw_readOnly : recorded (after (.csrw .x0 2) (regs 1 0 0)) = (1, 0, true) := by decide
theorem test_bnew : (after (.bnew .S 3) (source [0xAA, 0xBB] 2)).bufS = { len := 3, off := 0, bytes := [] } := by decide
theorem test_bnew_capacity : recorded (after (.bnew .D 513) State.reset) = (3, 0x201, true) := by decide
theorem test_bput : (after (.bput .S 0x2D) (source [0, 0] 0)).bufS = buffer [0x2D, 0] 1 := by decide
theorem test_bput_full : recorded (after (.bput .S 0xCD) (source [0xAB] 1)) = (2, 0x00010001, true) := by decide
theorem test_bputx : (after (.bputx .x1 .S) { source [0, 0] 0 with x := (regs 0 0x1234 0).x }).bufS
    = buffer [0x34, 0] 1 := by decide
theorem test_bget : ((after (.bget .x2 .S) (source [0x80] 0)).reg .x2, (after (.bget .x2 .S) (source [0x80] 0)).bufS.off)
    = (0x80, 1) := by decide
theorem test_bget_end : recorded (after (.bget .x2 .S) (source [0x80] 1)) = (2, 0x00010001, true) := by decide
theorem test_bseek : (after (.bseek .S 1) (source [0x80, 0x81] 2)).bufS.span = [0x80] := by decide
theorem test_bseek_past : recorded (after (.bseek .S 3) (source [0x80, 0x81] 2)) = (8, 3, true) := by decide
theorem test_bswap : ((after .bswap (source [0x80, 0x81] 2)).bufS, (after .bswap (source [0x80, 0x81] 2)).bufD)
    = (buffer [] 0, buffer [0x80, 0x81] 2) := by decide

/-! ## Bit-field unit (section 2.2) -/

theorem test_bfext : (after (.bfext .x0 .x1 7 9) (regs 0 0x2F98 0)).reg .x0 = 0x17 := by decide
theorem test_bfext_range : recorded (after (.bfext .x0 .x1 1 32) (regs 0 0xFFFFFFFF 0)) = (4, 0x0120, true) := by decide
theorem test_bffill : (after (.bffill .x0 .x1 .x2 3 2) (regs 0 0 0xFF)).reg .x0 = 0x1C := by decide
theorem test_bffill_kept : (after (.bffill .x0 .x1 .x2 3 2) (regs 0 0xFF 0)).reg .x0 = 0xE3 := by decide
theorem test_mtclr : (after .mtclr (table 0)).mt = List.replicate 32 none := by decide
theorem test_mtset : (after (.mtset 1 4) (table 0)).mt = [some 0, some 4, some 7] ++ List.replicate 29 none := by decide
theorem test_mtset_overlap : recorded (after (.mtset 1 0) (table 0)) = (7, 0x0100, true) := by decide
theorem test_flpack : (after (.flpack .x0 .x1) (table 0xFFFFFFFF)).reg .x0 = 0x89 := by decide
theorem test_flunpk : (after (.flunpk .x0 .x1) (table 0xFFFFFFFF)).reg .x0 = 0x7 := by decide

/-! ## Extended-value unit (section 2.3) -/

theorem test_extenc : (after (.extenc .x0) { regs 0x539B9 0 0 with bufD := buffer [0, 0, 0] 0 }).bufD
    = buffer [0xB9, 0xF3, 0x14] 3 := by decide
theorem test_extenc_full : recorded (after (.extenc .x0) { regs 0xFFFFFFFF 0 0 with bufD := buffer [0, 0, 0, 0] 0 })
    = (2, 0x00050000, true) := by decide
theorem test_extdec_truncated : ((after (.extdec .x0) (source [0xB9, 0xF3] 0)).reg .x0,
    (after (.extdec .x0) (source [0xB9, 0xF3] 0)).status.word) = (0x39B9, 0b010000) := by decide
theorem test_extdec_overflow : recorded (after (.extdec .x0) (source [0xFF, 0xFF, 0xFF, 0xFF, 0x1F] 0)) = (5, 0, true) := by
  decide

/-! ## Checksum units (section 2.4) -/

/-- "123456789". -/
def digits : List Byte := [0x31, 0x32, 0x33, 0x34, 0x35, 0x36, 0x37, 0x38, 0x39]

theorem test_crcinit : (after .crcinit { State.reset with crc := 0 }).crc = 0xFFFF := by decide
theorem test_crcupd : ((after (.crcupd 0) State.reset).crc, (after (.crcupd 0x80) { State.reset with crc := 0 }).crc)
    = (0x0F87, 0x8408) := by decide
theorem test_crcbuf : (after .crcbuf (source digits 9)).crc = 0x6F91 := by decide +kernel
theorem test_crcget : (after (.crcget .x1) { State.reset with crc := 0x6F91 }).reg .x1 = 0x906E := by decide
theorem test_lrcinit : (after .lrcinit { State.reset with lrc := 0 }).lrc = 0x55 := by decide
theorem test_lrcseed : (after (.lrcseed 0xFF) State.reset).lrc = 0xFF := by decide
theorem test_lrcupd : (after (.lrcupd 0x0C) State.reset).lrc = 0x59 := by decide
theorem test_lrcbuf : (after .lrcbuf (source [0x0C, 0x02, 0x2D, 0x88, 0xFE] 4)).lrc = 0xFE := by decide
theorem test_lrcget : (after (.lrcget .x0) State.reset).reg .x0 = 0x55 := by decide

/-! ## Framer (section 2.5) -/

theorem test_stuff : (after .stuff (source [0x7E, 0x7D, 0x11, 0x13, 0x5E, 0x20] 6)).bufD.contents
    = [0x7D, 0x5E, 0x7D, 0x5D, 0x7D, 0x31, 0x7D, 0x33, 0x5E, 0x20] := by decide
theorem test_unstuff : (after .unstuff (source [0x7D, 0x5E, 0x01, 0x7D, 0x33] 5)).bufD = buffer [0x7E, 0x01, 0x13] 3 := by
  decide
theorem test_unstuff_escape : recorded (after .unstuff (source [0x7D, 0x20] 2)) = (6, 0, true) := by decide
theorem test_frmenc : (after .frmenc (source [0x83, 0xF2] 2)).bufD.contents
    = [0x7E, 0x83, 0xF2, 0x7D, 0x5E, 0x7D, 0x5D, 0x7E] := by decide +kernel
theorem test_frmdec : ((after .frmdec (source [0x7E, 0x01, 0xF1, 0xE1, 0x7E] 5)).bufD.contents,
    (after .frmdec (source [0x7E, 0x01, 0xF1, 0xE1, 0x7E] 5)).fcsexp,
    (after .frmdec (source [0x7E, 0x01, 0xF1, 0xE1, 0x7E] 5)).status.word) = ([0x01], 0xE1F1, 0b000011) := by decide
theorem test_frmdec_inner_marker : ((after .frmdec (source [0x7E, 0x01, 0x7E, 0x02, 0x03, 0x7E] 6)).fcsact,
    (after .frmdec (source [0x7E, 0x01, 0x7E, 0x02, 0x03, 0x7E] 6)).status.word) = (0x8C66, 0b000010) := by decide +kernel

/-! ## The port (sections 2.6 and 2.7) -/

/-- An illegal word is answered before its operands are looked at (R205). -/
theorem test_step_illegal : (after .nop State.reset).fcause = 0 ∧
    step (issued [.command 0x12000001#32 0]) = .next
      ({ State.reset with cmd := 0x12000001#32 }.faulted .illegalCommand 0) := ⟨rfl, rfl⟩

/-! ## Witnesses: a state and operands that meet all the hypotheses of each statement, at the boundaries of its clauses -/

/-- A state in mid-use: registers, a mask table, a started span in `S`, room for three bytes in `D`. -/
def sample : State :=
  { table 0x12F99 with
    bufS := buffer [0x01, 0x7D] 1
    bufD := buffer [0, 0, 0] 1
    inputs := [.command 0#32 0] }

theorem sample_inv : Inv sample :=
  ⟨by decide, by decide, by decide, by decide, by decide, by decide, by decide⟩

theorem witness_reset_event : (issued [.reset, .command 0#32 0]).inputs = .reset :: [.command 0#32 0] := rfl

theorem witness_step_runs : (issued [.command 0x02C00000#32 7]).inputs = .command 0x02C00000#32 7 :: [] ∧
    decode 0x02C00000#32 = .ok (.setx .x3) := ⟨rfl, rfl⟩

theorem witness_step_unknownOp : (issued [.command 0x06000000#32 7]).inputs = .command 0x06000000#32 7 :: [] ∧
    decode 0x06000000#32 = .error .unknownOp := ⟨rfl, rfl⟩

theorem witness_step_reservedBits : (issued [.command 0x00000001#32 7]).inputs = .command 0x00000001#32 7 :: [] ∧
    decode 0x00000001#32 = .error .reservedBits := ⟨rfl, rfl⟩

theorem witness_idle : State.reset.inputs = [] := rfl

/-- A program whose second command faults: `NOP`, then `BGET x0, S` on an empty buffer. -/
def faultyProgram : List (BitVec 32 × Word) := [(0x00000000#32, 0), (0x12000000#32, 0)]

/-- The state that starts it. -/
def faultyStart : State := issued (faultyProgram.map fun c => HostInput.command c.1 c.2)

theorem witness_run : faultyStart.inputs = faultyProgram.map (fun c => HostInput.command c.1 c.2) ∧
    (∀ c ∈ faultyProgram, decode c.1 ≠ .ok .rst) ∧ ¬RecordedFault faultyStart := by
  refine ⟨rfl, fun c hc => ?_, by decide⟩
  simp only [faultyProgram, List.mem_cons, List.not_mem_nil, or_false] at hc
  rcases hc with rfl | rfl <;> decide

theorem witness_run_ends : ∃ t, Host.Core.run Sys2Proof.core 2 faultyStart = .next t ∧ RecordedFault t ∧
    t.responses = [{ rdata := 0, fault := 0 }, { rdata := 0, fault := 2 }] := ⟨_, rfl, rfl, rfl⟩

theorem witness_legal : Config.Legal ⟨32, 1⟩ ∧ Config.Legal ⟨64, 65535⟩ := by decide

theorem witness_step_keeps_inv : Inv sample ∧ step sample = .next ({ sample with inputs := [] }.answered 0) :=
  ⟨sample_inv, rfl⟩

theorem witness_decoded_word : decode 0x04C0000D#32 = .ok (.csrr .x3 13) ∧ encode (.csrr .x3 13) = 0x04C0000D#32 :=
  ⟨rfl, by decide⟩

theorem witness_unknown_op_ends : decode 0x06FFFFFF#32 = .error .unknownOp ∧ decode 0xFF000000#32 = .error .unknownOp ∧
    (0x06FFFFFF#32).toNat / 2 ^ 24 = 0x06 ∧ (0xFF000000#32).toNat / 2 ^ 24 = 0xFF := ⟨rfl, rfl, by decide, by decide⟩

theorem witness_illFormed : ∃ t,
    (issued [.command (encode (.csrr .x0 14)) 0]).inputs = .command (encode (.csrr .x0 14)) 0 :: [] ∧
    step (issued [.command (encode (.csrr .x0 14)) 0]) = .next t ∧ t.responses = [{ rdata := 0, fault := 1 }] :=
  ⟨_, rfl, rfl, rfl⟩

theorem witness_wellFormed : ∃ t,
    (issued [.command (encode (.csrw .x0 1)) 0]).inputs = .command (encode (.csrw .x0 1)) 0 :: [] ∧
    step (issued [.command (encode (.csrw .x0 1)) 0]) = .next t ∧ t.responses = [{ rdata := 0, fault := 0 }] :=
  ⟨_, rfl, rfl, rfl⟩

theorem witness_setx : State.reset.config.Legal ∧
    ({ State.reset with wdata := 0xFFFFFFFF } : State).wdata.toNat < 2 ^ State.reset.config.xlen := by decide

theorem witness_csrr : Inv sample ∧ (13#8).toNat ≤ 13 ∧ (14#8).toNat > 13 := ⟨sample_inv, by decide, by decide⟩

theorem witness_csrw : (0#8).toNat = 0 ∧ (1#8).toNat = 1 ∧ (2#8).toNat > 1 := by decide

theorem witness_bnew : (512#16).toNat ≤ State.reset.config.cap ∧ (513#16).toNat > State.reset.config.cap := by decide

/-- `BPUT`, `BPUTX` and `BGET` at the last byte of `S`, and at the end of `D`. -/
theorem witness_cursor : sample.config.Legal ∧ (sample.buf .S).off + 1 ≤ (sample.buf .S).len ∧ (sample.buf .S).bytes.wf ∧
    (State.reset.buf .D).off + 1 > (State.reset.buf .D).len := by decide

theorem witness_bseek : (2#16).toNat ≤ (sample.buf .S).len ∧ (3#16).toNat > (sample.buf .S).len := by decide

theorem witness_bit_range : sample.config.Legal ∧ (7#7).toNat + (25#7).toNat ≤ sample.config.xlen ∧
    (8#7).toNat + (25#7).toNat > sample.config.xlen := by decide

theorem witness_bffill : Inv sample ∧ (32#7).toNat + (0#7).toNat ≤ sample.config.xlen := ⟨sample_inv, by decide⟩

theorem witness_mtset_range : Inv sample ∧ (32#7).toNat ≥ sample.config.xlen ∧ (32#7).toNat ≥ sample.config.xlen :=
  ⟨sample_inv, by decide, by decide⟩

theorem witness_mtset_overlap : Inv sample ∧ (31#7).toNat < sample.config.xlen ∧ (3#7).toNat < sample.config.xlen ∧
    ∃ j, j ≠ (31#7).toNat ∧ sample.mt[j]? = some (some (3#7).toNat) :=
  ⟨sample_inv, by decide, by decide, 1, by decide, rfl⟩

theorem witness_mtset_free : Inv sample ∧ (31#7).toNat < sample.config.xlen ∧ (31#7).toNat < sample.config.xlen ∧
    ∀ j, j ≠ (31#7).toNat → sample.mt[j]? ≠ some (some (31#7).toNat) := by
  refine ⟨sample_inv, by decide, by decide, fun j _ h => ?_⟩
  have : some 31 ∈ sample.mt := List.mem_of_getElem? h
  exact absurd this (by decide)

/-- The entry that already holds the position is no other entry (R131). -/
theorem witness_mtset_again : ∀ j, j ≠ (1#7).toNat → (table 0).mt[j]? ≠ some (some (3#7).toNat) := by
  intro j hj h
  have hh : heldElsewhere 1 3 (table 0).mt 0 = true := (heldElsewhere_iff 1 3 _ 0).2 ⟨j, hj, h⟩
  exact absurd hh (by decide)

theorem witness_fields : 5 < 2 ^ 3 ∧ (2 + 3 ≤ 5 ∨ 5 + 4 ≤ 2) := by decide

theorem witness_nodup : ((table 0).mt.filterMap id).Nodup := by decide

theorem witness_extended_decode : 2 ≤ ([0x80, 0x81] : List Byte).length ∧
    decodeExtended [0x80, 0x81] 2 = { value := 0, next := 2, trunc := true } ∧
    decodeExtended [0x80, 0x01] 0 = { value := 128, next := 2, trunc := false } := by decide

/-- `sample` with `x0 = 0x80`, whose chain of two bytes fills `D` exactly. -/
def chainStart : State := { sample with x := { sample.x with x0 := 0x80 } }

theorem witness_extenc : chainStart.bufD.off + (encodeExtended (chainStart.reg .x0).toNat).length ≤ chainStart.bufD.len ∧
    chainStart.bufD.bytes.wf ∧
    sample.bufD.off + (encodeExtended (sample.reg .x1).toNat).length > sample.bufD.len := by decide

theorem witness_extdec :
    (decodeExtended [0xFF, 0xFF, 0xFF, 0xFF, 0x0F] 0).value < 2 ^ 32 ∧
    (decodeExtended [0x80, 0x80, 0x80, 0x80, 0x10] 0).value ≥ 2 ^ 32 := by decide

theorem witness_extdec_states :
    (source [0xFF, 0xFF, 0xFF, 0xFF, 0x0F] 0).config.Legal ∧
    (source [0xFF, 0xFF, 0xFF, 0xFF, 0x0F] 0).bufS.contents = [0xFF, 0xFF, 0xFF, 0xFF, 0x0F] ∧
    (source [0x80, 0x80, 0x80, 0x80, 0x10] 0).bufS.contents = [0x80, 0x80, 0x80, 0x80, 0x10] := by decide

theorem witness_chain : Inv chainStart ∧ chainStart.bufD.off = (1#16).toNat ∧
    (1#16).toNat + (encodeExtended (chainStart.reg .x0).toNat).length ≤ chainStart.bufD.len :=
  ⟨⟨by decide, by decide, by decide, by decide, by decide, by decide, by decide⟩, by decide, by decide⟩

theorem witness_lrc : ([1, 2] : List Byte).Perm [2, 1] ∧ (0x80 : Byte) ≠ 0 := ⟨by decide, by decide⟩

theorem witness_stuff : (stuff [0x7E])[0]? = some 0x7D ∧ ([0x7E] : List Byte) ≠ [] := by decide

/-- A prefix that mixes an escape with a raw marker and a raw `0x11`, a substitute as data, and a byte after an escape
that is no substitute (R172). -/
theorem witness_unstuff : unstuff [0x7D, 0x5E, 0x7E, 0x11] = some [0x7E, 0x7E, 0x11] ∧
    (0x7D : Byte) ∉ ([0x7E, 0x11, 0x5E] : List Byte) ∧ (0x13 : Byte) ≠ 0x7D ∧
    (0x7D : Byte) ∉ ([0x5E, 0x5D, 0x31, 0x33] : List Byte) ∧
    unstuff [0x7D, 0x5E, 0x7E, 0x11, 0x7D, 0x33, 0x13] = some [0x7E, 0x7E, 0x11, 0x13, 0x13] ∧
    unstuff [0x7E, 0x7D, 0x7D, 0x5E] = none := by decide

theorem witness_frame : ([0x01] : List Byte) ≠ [] ∧ ([0x7E] : List Byte).length < 2 ∧
    ([0x00, 0x7E] : List Byte)[0]? ≠ some 0x7E ∧ ([0x7E, 0x00] : List Byte).getLast? ≠ some 0x7E ∧
    (fromBytes [0x7E, 0x00, 0x00, 0x7E]).valid = true ∧ (fromBytes [0x7E, 0x01, 0x7D, 0x7E]).expv = false := by decide

/-- The interiors between two markers: one that ends on an escape, one a byte short, one of the checksum alone. -/
theorem witness_interior : unstuff [0x01, 0x7D] = none ∧
    (unstuff [0x7D, 0x5E] = some [0x7E] ∧ ([0x7E] : List Byte).length < 2) ∧
    unstuff [0xFF, 0xFF] = some ([] ++ [0xFF, 0xFF]) ∧ unstuff [0x01, 0x7E, 0x02, 0x03] = some ([0x01, 0x7E] ++ [0x02, 0x03]) := by
  decide

/-- A valid interior of one content byte, and the same with its content byte's top bit flipped. -/
theorem witness_single_bit : 7 < 8 ∧ (checkInterior ([] ++ 0x01 :: [0xF1, 0xE1])).valid = true ∧
    (checkInterior ([] ++ (0x01 ^^^ (1#8 <<< 7)) :: [0xF1, 0xE1])).valid = false := by decide

/-- The least capacity that the frame of one byte is sure to fit. -/
def frameStart : State := { State.resetWith ⟨32, 8⟩ with bufS := buffer [0x7E] 1 }

/-- A build of one byte (R3): an empty span fits, and one reserved byte stuffs to two bytes and does not. -/
def tiny : State := { State.resetWith ⟨32, 1⟩ with bufS := buffer [0x7E] 1 }

theorem witness_output : 2 * frameStart.bufS.off + 6 ≤ frameStart.config.cap ∧
    (stuff State.reset.bufS.span).length ≤ State.reset.config.cap ∧
    (toFrame State.reset.bufS.span).length ≤ State.reset.config.cap ∧
    (stuff tiny.bufS.span).length > tiny.config.cap ∧ (toFrame tiny.bufS.span).length > tiny.config.cap := by decide

/-- A stuffed span of exactly the capacity. -/
theorem witness_output_exact : (stuff ({ State.resetWith ⟨32, 2⟩ with bufS := buffer [0x7E] 1 } : State).bufS.span).length = 2 := by
  decide

theorem witness_unstuff_span : BufferOk 512 (source [0x7D, 0x5E] 2).bufS ∧
    unstuff (source [0x7D, 0x5E] 2).bufS.span = some [0x7E] ∧ unstuff (source [0x7D, 0x20] 2).bufS.span = none := by decide

theorem witness_frmdec : BufferOk sample.config.cap sample.bufS := by decide

theorem witness_frame_chain : Inv frameStart ∧ 0 < frameStart.bufS.off ∧
    2 * frameStart.bufS.off + 6 ≤ frameStart.config.cap :=
  ⟨⟨by decide, by decide, by decide, by decide, by decide, by decide, by decide⟩, by decide, by decide⟩

/-- For the rules of the whole machine: a command that completes, one that faults, and one that writes what it may. -/
theorem witness_whole_machine : (∃ t, exec (.getx .x1) sample = .next t ∧ t.responses = [{ rdata := 0x12F99, fault := 0 }]) ∧
    (∃ t, exec (.bget .x0 .D) State.reset = .next t ∧ t.responses = [{ rdata := 0, fault := 2 }]) ∧
    ∃ t, exec (.flpack .x0 .x1) sample = .next t ∧ t.reg .x0 ≠ sample.reg .x0 :=
  ⟨⟨_, rfl, rfl⟩, ⟨_, rfl, rfl⟩, _, rfl, by decide⟩

/-- Each premise of the statement on the state of the units, met by a command that changes that state. -/
theorem witness_unit_state : (after (.crcupd 1) State.reset).crc ≠ State.reset.crc ∧
    (after (.lrcupd 1) State.reset).lrc ≠ State.reset.lrc ∧ (after (.mtset 5 5) sample).mt ≠ sample.mt ∧
    ¬SameFcs State.reset (after .frmdec (source [0x7E, 0x01, 0xF1, 0xE1, 0x7E] 5)) ∧
    (after (.extdec .x0) State.reset).status.trunc ≠ State.reset.status.trunc ∧
    (after .rst (State.reset.faulted .capacity 1)).status.err = false := by decide

theorem witness_data_word : (∀ rd, Instr.nop ≠ .setx rd) ∧ exec .nop sample = .next (sample.answered 0) :=
  ⟨fun _ => by simp, rfl⟩

theorem witness_running_crc : ∃ t u, exec .frmenc sample = .next t ∧ exec .frmdec sample = .next u := ⟨_, _, rfl, rfl⟩

end Sys2Proof.Machine.Tests
end

section
/-! SUPPORT. What one command can do, said once: each case of the step as an equation, the ways a command ends with the
elements of state that it may write, and the data word that only `SETX` reads. -/

namespace Sys2Proof.Machine

/-! ## The step, one equation per input -/

/-- Nothing issued: the state stays (R4, R240). -/
theorem step_idle {s : State} (h : s.inputs = []) : step s = .next s := by
  simp only [step, takeInput, h]

/-- The host's reset event (R230). -/
theorem step_reset {s : State} {rest : List HostInput} (h : s.inputs = .reset :: rest) :
    step s = .next (s.acceptReset rest) := by
  simp only [step, takeInput, h]

/-- A word that decodes runs its command (R4, R64). -/
theorem step_command_ok {s : State} {w : BitVec 32} {d : Word} {rest : List HostInput} {i : Instr}
    (h : s.inputs = .command w d :: rest) (hd : decode w = .ok i) :
    step s = exec i (s.accept w d rest) := by
  simp only [step, takeInput, h, runCommand, State.accept_cmd, hd]

/-- A word that does not decode raises `IllegalCommand` (R65). -/
theorem step_command_error {s : State} {w : BitVec 32} {d : Word} {rest : List HostInput} {e : DecodeError}
    (h : s.inputs = .command w d :: rest) (hd : decode w = .error e) :
    step s = .next ((s.accept w d rest).faulted .illegalCommand 0) := by
  simp only [step, takeInput, h, runCommand, State.accept_cmd, hd, raise_eq]

/-- Every command ends in a next state (R4, R203). The commands that are named have a body that can raise a fault; the
others always complete. -/
theorem exec_next (i : Instr) (s : State) : ∃ t, exec i s = .next t := by
  cases i with
  | csrr | csrw | bnew | bput | bputx | bget | bseek | bfext | bffill | mtset | extenc | extdec | stuff | unstuff
  | frmenc | frmdec => exact finish_next s _
  | _ => exact ⟨_, rfl⟩

/-! ## The codes of the faults -/

theorem FaultCode.code_ne_zero (f : FaultCode) : f.code ≠ 0 := by cases f <;> decide

theorem FaultCode.code_le (f : FaultCode) : f.code.toNat ≤ 8 := by cases f <;> decide

/-! ## How a command ends -/

/-- `u` is what the body of a command may leave when it completes in `s`: which elements of state it writes, the
values it writes there left open. -/
def Leaves (i : Instr) (s u : State) : Prop :=
  match i with
  | .nop | .getx _ => u = s
  | .rst => u = s.toReset
  | .setx rd | .csrr rd _ | .bfext rd _ _ _ | .bffill rd _ _ _ _ | .flpack rd _ | .flunpk rd _
  | .crcget rd | .lrcget rd => ∃ v, u = s.setReg rd v
  | .csrw _ _ => (∃ c, u = { s with crc := c }) ∨ ∃ l, u = { s with lrc := l }
  | .bnew k _ | .bput k _ | .bputx _ k | .bseek k _ => ∃ b, u = s.setBuf k b
  | .bget rd k => ∃ v b, u = (s.setReg rd v).setBuf k b
  | .bswap => u = { s with bufS := s.bufD, bufD := s.bufS }
  | .mtclr | .mtset _ _ => ∃ mt, u = { s with mt := mt }
  | .extenc _ | .stuff | .unstuff | .frmenc => ∃ b, u = { s with bufD := b }
  | .extdec rd => ∃ v b trunc, u = { s.setReg rd v with bufS := b, status := s.status.withTrunc trunc }
  | .crcinit | .crcupd _ | .crcbuf => ∃ c, u = { s with crc := c }
  | .lrcinit | .lrcseed _ | .lrcupd _ | .lrcbuf => ∃ l, u = { s with lrc := l }
  | .frmdec => ∃ b r, u = State.withFrameResult { s with bufD := b } r

/-- A body that, if it completes, leaves what its command may leave. -/
def Effect.Leaves (i : Instr) (s : State) : Effect → Prop
  | .ok u => Machine.Leaves i s u
  | .error _ => True

/-- A body that raises a fault under a condition and completes otherwise. -/
theorem Effect.Leaves.guarded {i : Instr} {s u : State} (c : Prop) [Decidable c] {x : FaultCode × Nat}
    (h : Machine.Leaves i s u) : Effect.Leaves i s (if c then .error x else .ok u) := by
  split
  · trivial
  · exact h

/-- A body that writes at the cursor of buffer `k`. -/
theorem Effect.Leaves.putBytes {i : Instr} {s : State} {k : BufSel} (bytes : List Byte)
    (h : ∀ b, Machine.Leaves i s (s.setBuf k b)) : Effect.Leaves i s (putBytes k bytes s) :=
  .guarded _ (h _)

/-- A body that replaces the destination buffer. -/
theorem Effect.Leaves.replaceD {i : Instr} {s : State} (bytes : List Byte)
    (h : ∀ b, Machine.Leaves i s { s with bufD := b }) : Effect.Leaves i s (replaceD bytes s) :=
  .guarded _ (h _)

/-- How a command ends: in a fault that leaves all else alone (R203), or with a response, whose read data is 0 but for
`GETX` (R4). -/
def Ends (i : Instr) (s t : State) : Prop :=
  (∃ f info, t = s.faulted f info) ∨
    ∃ u rdata, t = u.answered rdata ∧ Leaves i s u ∧ (rdata = 0 ∨ ∃ rs, i = .getx rs ∧ rdata = s.reg rs)

theorem Leaves.ends {i : Instr} {s u : State} (h : Leaves i s u) : Ends i s (u.answered 0) :=
  .inr ⟨u, 0, rfl, h, .inl rfl⟩

theorem finish_ends {i : Instr} {s t : State} {e : Effect} (h : finish s e = .next t) (he : e.Leaves i s) :
    Ends i s t := by
  rcases finish_cases h with ⟨u, rfl, rfl⟩ | ⟨f, info, -, rfl⟩
  · exact Leaves.ends he
  · exact .inl ⟨f, info, rfl⟩

/-- The inversion of `exec`. The cases that are not named always complete and write one element of state. -/
theorem exec_ends {i : Instr} {s t : State} (h : exec i s = .next t) : Ends i s t := by
  cases i with
  | getx rs =>
    cases h
    exact .inr ⟨s, s.reg rs, rfl, rfl, .inr ⟨rs, rfl, rfl⟩⟩
  | nop | rst | bswap =>
    cases h
    exact Leaves.ends rfl
  | csrr rd csr =>
    refine finish_ends h ?_
    cases Csr.ofNumber csr.toNat with
    | none => trivial
    | some c => exact ⟨_, rfl⟩
  | csrw rs csr =>
    refine finish_ends h ?_
    split
    next u hu =>
      obtain ⟨c, -, hw⟩ := Option.bind_eq_some_iff.mp hu
      rcases State.writeCsr_cases hw with ⟨-, rfl⟩ | ⟨-, rfl⟩
      · exact .inl ⟨_, rfl⟩
      · exact .inr ⟨_, rfl⟩
    next => trivial
  | bnew k n | bseek k pos => exact finish_ends h (.guarded _ ⟨_, rfl⟩)
  | bput k b | bputx rs k => exact finish_ends h (.putBytes _ fun _ => ⟨_, rfl⟩)
  | bget rd k => exact finish_ends h (.guarded _ ⟨_, _, rfl⟩)
  | bfext | bffill => exact finish_ends h (.guarded _ ⟨_, rfl⟩)
  | mtset idx pos =>
    refine finish_ends h ?_
    split
    · trivial
    · exact .guarded _ ⟨_, rfl⟩
  | extenc rs => exact finish_ends h (.putBytes _ fun _ => ⟨_, rfl⟩)
  | extdec rd => exact finish_ends h (.guarded _ ⟨_, _, _, rfl⟩)
  | stuff | frmenc => exact finish_ends h (.replaceD _ fun _ => ⟨_, rfl⟩)
  | unstuff =>
    refine finish_ends h ?_
    split
    · trivial
    · exact .replaceD _ fun _ => ⟨_, rfl⟩
  | frmdec =>
    refine finish_ends h ?_
    rcases replaceD_cases (fromBytes s.bufS.span).content s with ⟨-, hr⟩ | ⟨-, hr⟩
    · rw [hr]
      exact ⟨_, _, rfl⟩
    · rw [hr]
      trivial
  | _ =>
    cases h
    exact Leaves.ends ⟨_, rfl⟩

/-! ## What every command leaves alone -/

/-- `u` has the port, the responses, the fault record and `ERR` of `s`. -/
abbrev SameOutcome (s u : State) : Prop :=
  SamePort s u ∧ u.responses = s.responses ∧ SameRecord s u ∧ u.status.err = s.status.err

theorem SameOutcome.refl (s : State) : SameOutcome s s :=
  ⟨⟨rfl, rfl, rfl, rfl⟩, rfl, ⟨rfl, rfl, rfl⟩, rfl⟩

theorem SameOutcome.setBuf (s : State) (k : BufSel) (b : Buffer) : SameOutcome s (s.setBuf k b) := by
  cases k <;> exact SameOutcome.refl s

/-- No body but that of `RST` writes the port, the responses, the fault record or `ERR` (R4, R203, R204). -/
theorem Leaves.sameOutcome {i : Instr} {s u : State} (h : Leaves i s u) (hi : i ≠ .rst) : SameOutcome s u := by
  cases i with
  | rst => exact absurd rfl hi
  | nop | getx | bswap =>
    cases h
    exact SameOutcome.refl s
  | csrw => rcases h with ⟨_, rfl⟩ | ⟨_, rfl⟩ <;> exact SameOutcome.refl s
  | bnew | bput | bputx | bseek =>
    obtain ⟨_, rfl⟩ := h
    exact SameOutcome.setBuf s ..
  | bget rd =>
    obtain ⟨v, _, rfl⟩ := h
    exact SameOutcome.setBuf (s.setReg rd v) ..
  | frmdec =>
    obtain ⟨_, _, rfl⟩ := h
    exact SameOutcome.refl s
  | extdec =>
    obtain ⟨_, _, _, rfl⟩ := h
    exact SameOutcome.refl s
  | _ =>
    obtain ⟨_, rfl⟩ := h
    exact SameOutcome.refl s

/-- No body gives a response of its own (R4). -/
theorem Leaves.responses {i : Instr} {s u : State} (h : Leaves i s u) : u.responses = s.responses := by
  by_cases hi : i = .rst
  · subst hi
    cases h
    exact State.toReset_responses s
  · obtain ⟨-, hr, -⟩ := h.sameOutcome hi
    exact hr

/-! ## The data word of the port -/

/-- The state `s` with the data word `d` on the port. -/
def State.withData (s : State) (d : Word) : State :=
  { s with wdata := d }

@[simp] theorem State.withData_bufS (s : State) (d : Word) : (s.withData d).bufS = s.bufS := rfl

/-- `e'` is the body `e` run with the data word `d` on the port instead: the same fault, or the same state but for
that word. -/
def Effect.SameBut (d : Word) (e e' : Effect) : Prop :=
  e' = e.map (·.withData d)

theorem finish_withData {s t : State} {d : Word} {e e' : Effect} (h : finish s e = .next t) (he : e.SameBut d e') :
    finish (s.withData d) e' = .next (t.withData d) := by
  subst he
  rcases finish_cases h with ⟨u, rfl, rfl⟩ | ⟨f, info, rfl, rfl⟩ <;> rfl

/-- A body that raises a fault under a condition in which the data word does not stand. -/
theorem Effect.SameBut.guarded {d : Word} (c : Prop) [Decidable c] (x : FaultCode × Nat) {e e' : Effect}
    (h : e.SameBut d e') : Effect.SameBut d (if c then .error x else e) (if c then .error x else e') := by
  split
  · rfl
  · exact h

theorem Effect.SameBut.putBytes (s : State) (d : Word) (k : BufSel) (bytes : List Byte) :
    Effect.SameBut d (putBytes k bytes s) (putBytes k bytes (s.withData d)) := by
  cases k <;> exact .guarded _ _ rfl

theorem Effect.SameBut.replaceD (s : State) (d : Word) (bytes : List Byte) :
    Effect.SameBut d (replaceD bytes s) (replaceD bytes (s.withData d)) :=
  .guarded _ _ rfl

/-- A body whose state is finished by a write in which the data word does not stand. -/
theorem Effect.SameBut.map {d : Word} {e e' : Effect} (h : e.SameBut d e') {g : State → State}
    (hg : ∀ u, g (u.withData d) = (g u).withData d) : Effect.SameBut d (e.map g) (e'.map g) := by
  subst h
  cases e with
  | error x => rfl
  | ok u => exact congrArg Except.ok (hg u)

/-- R60: a command other than `SETX` ends the same way whatever the data word. The cases that are not named always
complete, in a state that no reading of the data word goes into. -/
theorem exec_withData {i : Instr} {s t : State} (hi : ∀ rd, i ≠ .setx rd) (h : exec i s = .next t) (d : Word) :
    exec i (s.withData d) = .next (t.withData d) := by
  cases i with
  | setx rd => exact absurd rfl (hi rd)
  | csrr _ csr | csrw _ csr =>
    refine finish_withData h ?_
    cases Csr.ofNumber csr.toNat with
    | none => rfl
    | some c => cases c <;> rfl
  | bnew k | bseek k | bget _ k => cases k <;> exact finish_withData h (.guarded _ _ rfl)
  | bput k | bputx _ k => exact finish_withData h (.putBytes s d k _)
  | bfext | bffill | extdec => exact finish_withData h (.guarded _ _ rfl)
  | mtset => exact finish_withData h (.guarded _ _ (.guarded _ _ rfl))
  | extenc => exact finish_withData h (.putBytes s d .D _)
  | stuff | frmenc => exact finish_withData h (.replaceD s d _)
  | unstuff =>
    refine finish_withData h ?_
    rw [State.withData_bufS]
    cases unstuff s.bufS.span with
    | none => rfl
    | some u => exact .replaceD s d u
  | frmdec => exact finish_withData h ((Effect.SameBut.replaceD s d _).map fun _ => rfl)
  | _ =>
    cases h
    rfl

end Sys2Proof.Machine
end

section
/-! PROOF. The statements of the family `00_scope.md`: the step runs what the host issued and always answers, a fault
changes only the fault record, and the data words of the port are `SETX`'s and `GETX`'s alone. -/

namespace Sys2Proof.Machine

/-- Settles O4, by the step's equation for a word that decodes. -/
theorem stepRunsTheDecodedCommand : Obligations.StepRunsTheDecodedCommand := by
  intro s w d rest i hin hdec
  exact step_command_ok hin hdec

/-- Settles O6, by what the host does next: nothing, a reset, or a word, which decodes or does not. -/
theorem everyStepAnswersANextState : Obligations.EveryStepAnswersANextState := by
  intro s
  rcases hin : s.inputs with _ | ⟨_ | ⟨w, d⟩, rest⟩
  · exact ⟨s, step_idle hin, fun _ => rfl⟩
  · exact ⟨_, step_reset hin, nofun⟩
  cases hdec : decode w with
  | ok i =>
    obtain ⟨t, ht⟩ := exec_next i (s.accept w d rest)
    exact ⟨t, (step_command_ok hin hdec).trans ht, nofun⟩
  | error e => exact ⟨_, step_command_error hin hdec, nofun⟩

/-- Settles O55, by the two ways a command ends: `raise` writes what R203 lists and a code that is not 0, and a body
that completes writes neither the fault record nor `ERR`, unless it is that of `RST`. -/
theorem aFaultChangesOnlyTheFaultRecord : Obligations.AFaultChangesOnlyTheFaultRecord := by
  intro i s t h
  rcases exec_ends h with ⟨f, info, rfl⟩ | ⟨u, rdata, rfl, hu, -⟩
  · exact ⟨_, State.faulted_responses s f info, f.code_le, fun _ => ⟨rfl, rfl⟩,
      fun hf => absurd hf f.code_ne_zero⟩
  · refine ⟨{ rdata := rdata, fault := 0 }, ?_, Nat.zero_le 8, fun hf => absurd rfl hf, fun _ hi => ?_⟩
    · rw [State.answered_responses, hu.responses]
    · obtain ⟨-, -, hrecord⟩ := hu.sameOutcome hi
      exact hrecord

/-- Settles O59: a response's read data is 0 but for `GETX` by the two ways a command ends, and the data word makes no
difference by `exec_withData`. -/
theorem onlySetxTakesAndOnlyGetxGivesData : Obligations.OnlySetxTakesAndOnlyGetxGivesData := by
  intro i s t h
  refine ⟨fun a ha hne => ?_, fun hi d => exec_withData hi h d⟩
  rcases exec_ends h with ⟨f, info, rfl⟩ | ⟨u, rdata, rfl, hu, hdata⟩
  · obtain rfl : _ = a := by simpa using ha
    exact absurd rfl hne
  · obtain rfl : _ = a := by simpa [hu.responses] using ha
    rcases hdata with rfl | ⟨rs, rfl, -⟩
    · exact absurd rfl hne
    · exact ⟨rs, rfl⟩

end Sys2Proof.Machine
end

section
/-! SUPPORT. The invariant of every reachable state (R3, R10, R15 to R21): one rule per operation on the state, then the
bodies of the commands. -/

namespace Sys2Proof.Machine

/-! ## The mask table -/

/-- No position is held twice exactly when the entries that hold one position are one entry (R19). -/
theorem nodup_positions_iff (mt : List (Option Nat)) :
    (mt.filterMap id).Nodup ↔ ∀ i j p : Nat, mt[i]? = some (some p) → mt[j]? = some (some p) → i = j := by
  rw [List.nodup_iff_pairwise_ne, List.pairwise_filterMap, List.pairwise_iff_getElem]
  simp only [id, List.getElem?_eq_some_iff]
  constructor
  · rintro h i j p ⟨hi, hip⟩ ⟨hj, hjp⟩
    rcases Nat.lt_trichotomy i j with hij | rfl | hij
    · exact absurd rfl (h i j hi hj hij p hip p hjp)
    · rfl
    · exact absurd rfl (h j i hj hi hij p hjp p hip)
  · rintro h i j hi hj hij p hp q hq rfl
    exact absurd (h i j p ⟨hi, hp⟩ ⟨hj, hq⟩) (Nat.ne_of_lt hij)

/-- After a position is put into entry `idx`, that entry holds it and every other entry what it held before (R131). -/
theorem eq_of_getElem?_set {mt : List (Option Nat)} {idx pos i p : Nat}
    (h : (mt.set idx (some pos))[i]? = some (some p)) : (i = idx ∧ p = pos) ∨ (i ≠ idx ∧ mt[i]? = some (some p)) := by
  rcases eq_or_ne i idx with rfl | hi
  · obtain ⟨hlen, hp⟩ := List.getElem?_eq_some_iff.mp h
    rw [List.getElem_set_self] at hp
    exact .inl ⟨rfl, by simpa using hp.symm⟩
  · exact .inr ⟨hi, by rwa [List.getElem?_set_ne hi.symm] at h⟩

/-- Putting a position that no other entry holds into an entry keeps the positions distinct (R19, R131). -/
theorem nodup_positions_set {mt : List (Option Nat)} {idx pos : Nat} (h : (mt.filterMap id).Nodup)
    (hfree : ¬heldElsewhere idx pos mt 0) : ((mt.set idx (some pos)).filterMap id).Nodup := by
  rw [nodup_positions_iff] at h ⊢
  have hother {i : Nat} (hi : i ≠ idx) (hp : mt[i]? = some (some pos)) : False :=
    hfree ((heldElsewhere_iff idx pos mt 0).mpr ⟨i, hi, hp⟩)
  intro i j p hi hj
  rcases eq_of_getElem?_set hi with ⟨rfl, rfl⟩ | ⟨hine, hi⟩ <;>
    rcases eq_of_getElem?_set hj with ⟨hji, hp⟩ | ⟨hjne, hj⟩
  · exact hji.symm
  · exact (hother hjne hj).elim
  · exact (hother hine (hp ▸ hi)).elim
  · exact h i j p hi hj

/-! ## The values that commands write -/

/-- A decode that starts at index `o` ends no further than the end of the bytes (R141). -/
theorem decodeGroups_next_le (s : List Byte) (o position v : Nat) : (decodeGroups s o position v).next ≤ o + s.length := by
  induction s generalizing o position v with
  | nil => exact le_refl o
  | cons b s ih =>
    simp only [decodeGroups, List.length_cons]
    split
    · show o + 1 ≤ o + (s.length + 1)
      omega
    · have := ih (o + 1) (position + 1) (v + ((b.toNat &&& 0x7F) <<< (7 * position)))
      omega

/-- `EXTDEC` moves the cursor no further than `len` (R146). -/
theorem Buffer.next_decodeExtended_le {b : Buffer} (h : b.off ≤ b.len) :
    (decodeExtended b.contents b.off).next ≤ b.len := by
  have := decodeGroups_next_le (b.contents.drop b.off) b.off 0 0
  simp only [List.length_drop, Buffer.length_contents] at this
  exact this.trans (by omega)

/-- A closed result, which has one reason, agrees with itself (R174). -/
theorem frameRegsOk_closed (s : State) {sync esc : Bool} (h : (sync && esc) = false) :
    FrameRegsOk (s.withFrameResult (.closed sync esc)) :=
  ⟨nofun, fun _ => ⟨rfl, rfl, rfl⟩, h⟩

/-- The flags and checksum registers that `FRMDEC` writes agree (R174, R175 (c)). -/
theorem frameRegsOk_fromBytes (s : State) (w : List Byte) : FrameRegsOk (s.withFrameResult (fromBytes w)) := by
  unfold fromBytes
  split
  · exact frameRegsOk_closed s rfl
  split
  · exact frameRegsOk_closed s rfl
  unfold checkInterior
  split
  · exact frameRegsOk_closed s rfl
  · exact ⟨fun _ => ⟨rfl, rfl, rfl⟩, nofun, rfl⟩

/-! ## The invariant, one rule per operation on the state -/

/-- The reset state of a legal build (R28). -/
theorem Inv.resetWith {c : Config} (h : c.Legal) : Inv (State.resetWith c) where
  config := h
  regs := ⟨by positivity, by positivity, by positivity, by positivity⟩
  masks := by simp [MaskTableOk, State.resetWith]
  bufS := BufferOk.zeros (Nat.zero_le _)
  bufD := BufferOk.zeros (Nat.zero_le _)
  frame := ⟨nofun, fun _ => ⟨rfl, rfl, rfl⟩, rfl⟩
  record := ⟨Nat.zero_le 8, ⟨fun _ => rfl, fun _ => rfl⟩, fun _ => ⟨rfl, rfl⟩⟩

section
variable {s : State} (h : Inv s)
include h

theorem Inv.toReset : Inv s.toReset := { Inv.resetWith h.config with }

theorem Inv.acceptReset (rest : List HostInput) : Inv (s.acceptReset rest) := { h.toReset with }

theorem Inv.accept (w : BitVec 32) (d : Word) (rest : List HostInput) : Inv (s.accept w d rest) := { h with }

theorem Inv.answered (d : Word) : Inv (s.answered d) := { h with }

/-- A fault records a code that is not 0 and sets `ERR` (R203). -/
theorem Inv.faulted (f : FaultCode) (info : Nat) : Inv (s.faulted f info) :=
  { h with record := ⟨f.code_le, ⟨nofun, fun hf => absurd hf f.code_ne_zero⟩, nofun⟩ }

theorem Inv.setReg (r : Reg) (v : Nat) : Inv (s.setReg r v) :=
  { h with regs := State.setReg_regsInRange h.regs r v }

theorem Inv.withCrc (c : BitVec 16) : Inv { s with crc := c } := { h with }

theorem Inv.withLrc (l : Byte) : Inv { s with lrc := l } := { h with }

theorem Inv.withTrunc (b : Bool) : Inv { s with status := s.status.withTrunc b } := { h with }

theorem Inv.withFrameResult (w : List Byte) : Inv (s.withFrameResult (fromBytes w)) :=
  { h with frame := frameRegsOk_fromBytes s w }

theorem Inv.buf (k : BufSel) : BufferOk s.config.cap (s.buf k) := by
  cases k
  · exact h.bufS
  · exact h.bufD

theorem Inv.setBuf (k : BufSel) {b : Buffer} (hb : BufferOk s.config.cap b) : Inv (s.setBuf k b) := by
  cases k
  · exact { h with bufS := hb }
  · exact { h with bufD := hb }

theorem Inv.swapBufs : Inv { s with bufS := s.bufD, bufD := s.bufS } :=
  { h with bufS := h.bufD, bufD := h.bufS }

/-- `MTCLR` empties every entry (R130). -/
theorem Inv.clearMasks : Inv { s with mt := List.replicate s.config.xlen none } :=
  { h with masks := (Inv.resetWith h.config).masks }

/-- `MTSET` writes a position below XLEN that no other entry holds (R131). -/
theorem Inv.setMask {idx pos : Nat} (hpos : pos < s.config.xlen) (hfree : ¬heldElsewhere idx pos s.mt 0) :
    Inv { s with mt := s.mt.set idx (some pos) } := by
  obtain ⟨hlen, hlt, hnodup⟩ := h.masks
  refine { h with masks := ⟨(List.length_set).trans hlen, fun p hp => ?_, nodup_positions_set hnodup hfree⟩ }
  obtain ⟨e, he, rfl⟩ := List.mem_filterMap.mp hp
  rcases List.mem_or_eq_of_mem_set he with he | he
  · exact hlt p (List.mem_filterMap.mpr ⟨_, he, rfl⟩)
  · cases he
    exact hpos

end

/-! ## The bodies of the commands -/

/-- A body that, if it completes, leaves a state in the invariant. -/
def Effect.KeepsInv : Effect → Prop
  | .ok u => Inv u
  | .error _ => True

/-- A body that raises a fault under a condition. -/
theorem Effect.KeepsInv.guarded (c : Prop) [Decidable c] {x : FaultCode × Nat} {e : Effect} (h : ¬c → e.KeepsInv) :
    Effect.KeepsInv (if c then .error x else e) := by
  split
  next => trivial
  next hc => exact h hc

theorem Effect.KeepsInv.putBytes {s : State} (h : Inv s) (k : BufSel) (bytes : List Byte) :
    Effect.KeepsInv (putBytes k bytes s) :=
  .guarded _ fun hfit => h.setBuf k ((h.buf k).put (Nat.not_lt.mp hfit))

theorem Effect.KeepsInv.replaceD {s : State} (h : Inv s) (bytes : List Byte) : Effect.KeepsInv (replaceD bytes s) :=
  .guarded _ fun hfit => h.setBuf .D (BufferOk.ofBytes (Nat.not_lt.mp hfit))

theorem finish_keeps_inv {s t : State} {e : Effect} (hs : Inv s) (h : finish s e = .next t) (he : e.KeepsInv) : Inv t := by
  rcases finish_cases h with ⟨u, rfl, rfl⟩ | ⟨f, info, -, rfl⟩
  · exact Inv.answered he 0
  · exact hs.faulted f info

/-- Every command keeps the invariant. Each case names the rule of the operation that its body ends in. -/
theorem exec_keeps_inv {i : Instr} {s t : State} (hs : Inv s) (h : exec i s = .next t) : Inv t := by
  cases i with
  | rst =>
    cases h
    exact hs.toReset.answered 0
  | nop | getx =>
    cases h
    exact hs.answered _
  | setx | flpack | flunpk | crcget | lrcget =>
    cases h
    exact (hs.setReg _ _).answered 0
  | bfext | bffill => exact finish_keeps_inv hs h (.guarded _ fun _ => hs.setReg _ _)
  | csrr rd csr =>
    refine finish_keeps_inv hs h ?_
    cases Csr.ofNumber csr.toNat with
    | none => trivial
    | some c => exact hs.setReg _ _
  | csrw =>
    rcases exec_ends h with ⟨f, info, rfl⟩ | ⟨u, rdata, rfl, ⟨c, rfl⟩ | ⟨l, rfl⟩, -⟩
    · exact hs.faulted f info
    · exact (hs.withCrc c).answered rdata
    · exact (hs.withLrc l).answered rdata
  | bnew k => exact finish_keeps_inv hs h (.guarded _ fun hn => hs.setBuf k (.zeros (Nat.not_lt.mp hn)))
  | bput k | bputx _ k => exact finish_keeps_inv hs h (.putBytes hs k _)
  | bget rd k =>
    exact finish_keeps_inv hs h (.guarded _ fun hoff => (hs.setReg rd _).setBuf k ((hs.buf k).seek (Nat.not_lt.mp hoff)))
  | bseek k => exact finish_keeps_inv hs h (.guarded _ fun hpos => hs.setBuf k ((hs.buf k).seek (Nat.not_lt.mp hpos)))
  | bswap =>
    cases h
    exact hs.swapBufs.answered 0
  | mtclr =>
    cases h
    exact hs.clearMasks.answered 0
  | mtset idx pos =>
    refine finish_keeps_inv hs h (.guarded _ fun hrange => .guarded _ fun hfree => hs.setMask ?_ hfree)
    omega
  | extenc => exact finish_keeps_inv hs h (.putBytes hs .D _)
  | extdec rd =>
    obtain ⟨hoff, -⟩ := hs.bufS
    have hnext := Buffer.next_decodeExtended_le hoff
    exact finish_keeps_inv hs h
      (.guarded _ fun _ => ((hs.setReg rd _).setBuf .S (hs.bufS.seek hnext)).withTrunc _)
  | crcinit | crcupd | crcbuf =>
    cases h
    exact (hs.withCrc _).answered 0
  | lrcinit | lrcseed | lrcupd | lrcbuf =>
    cases h
    exact (hs.withLrc _).answered 0
  | stuff | frmenc => exact finish_keeps_inv hs h (.replaceD hs _)
  | unstuff =>
    refine finish_keeps_inv hs h ?_
    split
    · trivial
    · exact .replaceD hs _
  | frmdec =>
    refine finish_keeps_inv hs h ?_
    have hD := Effect.KeepsInv.replaceD hs (fromBytes s.bufS.span).content
    cases hr : Machine.replaceD (fromBytes s.bufS.span).content s with
    | error => trivial
    | ok u =>
      rw [hr] at hD
      exact Inv.withFrameResult hD _

end Sys2Proof.Machine
end

section
/-! SUPPORT. Which commands write which element of state (R11, R13 to R16, R18, R24), read off the ways a command ends. -/

namespace Sys2Proof.Machine

/-- A register that a write to `rd` changes is `rd` (R11). -/
theorem eq_of_reg_setReg_ne {s : State} {rd r : Reg} {v : Nat} (h : (s.setReg rd v).reg r ≠ s.reg r) : r = rd := by
  by_contra hne
  exact h (State.reg_setReg_other s hne v)

/-- Only the number 0 names `CRC` (R22). -/
theorem Csr.ofNumber_eq_crc {n : Nat} (h : Csr.ofNumber n = some .crc) : n = 0 := by
  unfold Csr.ofNumber at h
  split at h <;> cases h
  rfl

/-- Only the number 1 names `LRC` (R22). -/
theorem Csr.ofNumber_eq_lrc {n : Nat} (h : Csr.ofNumber n = some .lrc) : n = 1 := by
  unfold Csr.ofNumber at h
  split at h <;> cases h
  rfl

/-- `CSRW` changes `crc` as control register 0 and `lrc` as control register 1 (R24, R105). -/
theorem execCsrw_sums {rs : Reg} {csr : Byte} {s t : State} (h : exec (.csrw rs csr) s = .next t) :
    (t.crc ≠ s.crc → csr = 0) ∧ (t.lrc ≠ s.lrc → csr = 1) := by
  rcases finish_cases h with ⟨u, hu, rfl⟩ | ⟨f, info, -, rfl⟩
  · split at hu
    next v hv =>
      cases hu
      obtain ⟨c, hc, hw⟩ := Option.bind_eq_some_iff.mp hv
      rcases State.writeCsr_cases hw with ⟨rfl, rfl⟩ | ⟨rfl, rfl⟩
      · exact ⟨fun _ => BitVec.eq_of_toNat_eq (Csr.ofNumber_eq_crc hc), fun hne => absurd rfl hne⟩
      · exact ⟨fun hne => absurd rfl hne, fun _ => BitVec.eq_of_toNat_eq (Csr.ofNumber_eq_lrc hc)⟩
    next => cases hu
  · exact ⟨fun hne => absurd rfl hne, fun hne => absurd rfl hne⟩

/-- The accumulators, the frame results, the mask table and the flags are as they were. -/
abbrev SameUnits (s u : State) : Prop := SameSums s u ∧ SameFcs s u ∧ u.mt = s.mt ∧ u.status = s.status

/-- The commands that write an accumulator, a frame result, the mask table or a flag (R13 to R16, R18). -/
def writesUnits : Instr → Bool
  | .rst | .csrw _ _ | .mtclr | .mtset _ _ | .extdec _ | .crcinit | .crcupd _ | .crcbuf | .lrcinit | .lrcseed _ | .lrcupd _
  | .lrcbuf | .frmdec => true
  | _ => false

/-- The other commands write registers and buffers only. -/
theorem Leaves.sameUnits {i : Instr} {s u : State} (h : Leaves i s u) (hi : ¬writesUnits i) : SameUnits s u := by
  have hrefl : SameUnits s s := ⟨⟨rfl, rfl⟩, ⟨rfl, rfl⟩, rfl, rfl⟩
  cases i with
  | rst | csrw | mtclr | mtset | extdec | crcinit | crcupd | crcbuf | lrcinit | lrcseed | lrcupd | lrcbuf | frmdec =>
    exact absurd rfl hi
  | nop | getx | bswap =>
    cases h
    exact hrefl
  | bnew k | bput k | bputx _ k | bseek k =>
    obtain ⟨b, rfl⟩ := h
    cases k <;> exact hrefl
  | bget rd k =>
    obtain ⟨v, b, rfl⟩ := h
    cases k <;> exact hrefl
  | _ =>
    obtain ⟨_, rfl⟩ := h
    exact hrefl

/-- Flags that are as they were meet every rule on what may change a flag. -/
theorem flag_rules_of_eq {f g : Status} (h : g = f) (frameRule truncRule errRule : Prop) :
    ((g.valid ≠ f.valid ∨ g.expv ≠ f.expv ∨ g.sync ≠ f.sync ∨ g.esc ≠ f.esc) → frameRule) ∧
      (g.trunc ≠ f.trunc → truncRule) ∧ (f.err = true → g.err = false → errRule) := by
  subst h
  refine ⟨?_, fun hne => absurd rfl hne, fun herr hclear => absurd (herr.symm.trans hclear) nofun⟩
  rintro (hne | hne | hne | hne) <;> exact absurd rfl hne

end Sys2Proof.Machine
end

section
/-! PROOF. The statements of the family `10_state.md`: the reset values, the invariant at reset and over every step, and
which command can write which element of state. -/

namespace Sys2Proof.Machine

/-- Settles O10, by what a step does: nothing, a reset, a command, or `IllegalCommand`, each of which keeps the
invariant. -/
theorem everyStepKeepsTheInvariant : Obligations.EveryStepKeepsTheInvariant := by
  intro s t hs h
  rcases step_cases h with ⟨-, rfl⟩ | ⟨rest, -, rfl⟩ | ⟨w, d, rest, -, ⟨i, -, hexec⟩ | ⟨e, -, rfl⟩⟩
  · exact hs
  · exact hs.acceptReset rest
  · exact exec_keeps_inv (hs.accept w d rest) hexec
  · exact (hs.accept w d rest).faulted .illegalCommand 0

/-- Settles O9. -/
theorem resetMeetsTheInvariant : Obligations.ResetMeetsTheInvariant :=
  ⟨Inv.resetWith (by decide), fun _ => Inv.resetWith⟩

/-- Settles O1: each value is the one `State.resetWith` writes. -/
theorem resetStateHasTheResetValues : Obligations.ResetStateHasTheResetValues := by
  refine ⟨fun r => ?_, rfl, rfl, ⟨rfl, rfl, rfl, rfl, rfl, rfl⟩, rfl, rfl, rfl, rfl, rfl,
    fun e he => List.eq_of_mem_replicate he, fun k => ?_⟩
  · cases r <;> rfl
  · cases k <;> exact ⟨rfl, rfl, rfl⟩

/-- Settles O57, by the ways a command ends: a fault writes no register, and of the bodies that complete only those of the
commands with a destination and of `RST` write one. -/
theorem registersAreWrittenOnlyByTheirCommands : Obligations.RegistersAreWrittenOnlyByTheirCommands := by
  intro i s t r h hne
  rcases exec_ends h with ⟨f, info, rfl⟩ | ⟨u, rdata, rfl, hu, -⟩
  · exact absurd rfl hne
  rw [State.reg_answered] at hne
  cases i with
  | rst => trivial
  | setx | csrr | bfext | bffill | flpack | flunpk | crcget | lrcget =>
    obtain ⟨v, rfl⟩ := hu
    exact eq_of_reg_setReg_ne hne
  | bget rd k =>
    obtain ⟨v, b, rfl⟩ := hu
    rw [State.reg_setBuf] at hne
    exact eq_of_reg_setReg_ne hne
  | extdec rd =>
    obtain ⟨v, b, trunc, rfl⟩ := hu
    exact eq_of_reg_setReg_ne hne
  | nop | getx | bswap =>
    cases hu
    exact absurd rfl hne
  | csrw => rcases hu with ⟨_, rfl⟩ | ⟨_, rfl⟩ <;> exact absurd rfl hne
  | bnew | bput | bputx | bseek =>
    obtain ⟨b, rfl⟩ := hu
    exact absurd (State.reg_setBuf s _ b r) hne
  | frmdec =>
    obtain ⟨_, _, rfl⟩ := hu
    exact absurd rfl hne
  | _ =>
    obtain ⟨_, rfl⟩ := hu
    exact absurd rfl hne

/-- Settles O58, by the ways a command ends: a fault writes no flag but `ERR`, a command that writes no unit state leaves
it as it was, and each of the others writes what `Leaves` lists for it. -/
theorem unitStateIsWrittenOnlyByItsCommands : Obligations.UnitStateIsWrittenOnlyByItsCommands := by
  intro i s t h
  rcases exec_ends h with ⟨f, info, rfl⟩ | ⟨u, rdata, rfl, hu, -⟩
  · refine ⟨fun hne => absurd rfl hne, fun hne => absurd rfl hne, fun hne => absurd ⟨rfl, rfl⟩ hne,
      fun hne => absurd rfl hne, ?_⟩
    simp
  by_cases hi : writesUnits i
  case neg =>
    obtain ⟨⟨hcrc, hlrc⟩, hfcs, hmt, hstatus⟩ := hu.sameUnits hi
    exact ⟨fun hne => absurd hcrc hne, fun hne => absurd hlrc hne, fun hne => absurd hfcs hne,
      fun hne => absurd hmt hne, flag_rules_of_eq hstatus ..⟩
  cases i with
  | rst =>
    exact ⟨fun _ => trivial, fun _ => trivial, fun _ => .inr rfl, fun _ => trivial, fun _ => .inr rfl, fun _ => .inr rfl,
      fun _ _ => rfl⟩
  | csrw rs csr =>
    obtain ⟨hcrc, hlrc⟩ := execCsrw_sums h
    refine ⟨hcrc, hlrc, ?_⟩
    rcases hu with ⟨c, rfl⟩ | ⟨l, rfl⟩ <;>
      exact ⟨fun hne => absurd ⟨rfl, rfl⟩ hne, fun hne => absurd rfl hne, flag_rules_of_eq rfl ..⟩
  | crcinit | crcupd | crcbuf =>
    obtain ⟨c, rfl⟩ := hu
    exact ⟨fun _ => trivial, fun hne => absurd rfl hne, fun hne => absurd ⟨rfl, rfl⟩ hne, fun hne => absurd rfl hne,
      flag_rules_of_eq rfl ..⟩
  | lrcinit | lrcseed | lrcupd | lrcbuf =>
    obtain ⟨l, rfl⟩ := hu
    exact ⟨fun hne => absurd rfl hne, fun _ => trivial, fun hne => absurd ⟨rfl, rfl⟩ hne, fun hne => absurd rfl hne,
      flag_rules_of_eq rfl ..⟩
  | mtclr | mtset =>
    obtain ⟨mt, rfl⟩ := hu
    exact ⟨fun hne => absurd rfl hne, fun hne => absurd rfl hne, fun hne => absurd ⟨rfl, rfl⟩ hne, fun _ => trivial,
      flag_rules_of_eq rfl ..⟩
  | extdec rd =>
    obtain ⟨v, b, trunc, rfl⟩ := hu
    refine ⟨fun hne => absurd rfl hne, fun hne => absurd rfl hne, fun hne => absurd ⟨rfl, rfl⟩ hne,
      fun hne => absurd rfl hne, ?_, fun _ => .inl ⟨rd, rfl⟩, ?_⟩ <;> simp +contextual
  | frmdec =>
    obtain ⟨b, r, rfl⟩ := hu
    refine ⟨fun hne => absurd rfl hne, fun hne => absurd rfl hne, fun _ => .inl rfl, fun hne => absurd rfl hne,
      fun _ => .inl rfl, fun hne => absurd rfl hne, ?_⟩
    simp +contextual
  | _ => cases hi

end Sys2Proof.Machine
end

section
/-! SUPPORT. The decoder and the encoder seen from both sides: what each field reads as a number, the word that a format
rebuilds from its fields, and the fields of an assembled word. -/

namespace Sys2Proof

/-! ## What a field reads -/

theorem bits_lt (w : BitVec 32) (hi lo : Nat) : bits w hi lo < 2 ^ (hi - lo + 1) :=
  Nat.mod_lt _ (Nat.two_pow_pos _)

@[simp] theorem number_raField (w : BitVec 32) : (raField w).number = bits w 23 22 :=
  Reg.number_ofNumber (bits_lt w 23 22)

@[simp] theorem number_rbField (w : BitVec 32) : (rbField w).number = bits w 21 20 :=
  Reg.number_ofNumber (bits_lt w 21 20)

@[simp] theorem number_rcField (w : BitVec 32) : (rcField w).number = bits w 19 18 :=
  Reg.number_ofNumber (bits_lt w 19 18)

@[simp] theorem number_kField (w : BitVec 32) : (kField w).number = bits w 16 16 :=
  BufSel.number_ofNumber (bits_lt w 16 16)

@[simp] theorem toNat_cntField (w : BitVec 32) : (cntField w).toNat = bits w 14 8 :=
  Nat.mod_eq_of_lt (bits_lt w 14 8)

@[simp] theorem toNat_startField (w : BitVec 32) : (startField w).toNat = bits w 6 0 :=
  Nat.mod_eq_of_lt (bits_lt w 6 0)

@[simp] theorem toNat_imm8Field (w : BitVec 32) : (imm8Field w).toNat = bits w 7 0 :=
  Nat.mod_eq_of_lt (bits_lt w 7 0)

@[simp] theorem toNat_imm16Field (w : BitVec 32) : (imm16Field w).toNat = bits w 15 0 :=
  Nat.mod_eq_of_lt (bits_lt w 15 0)

/-- The operation code is the top byte (R61). -/
theorem opField_eq (w : BitVec 32) : opField w = w.toNat / 2 ^ 24 := by
  rw [opField, bits_eq]
  omega

/-! ## The word that a format rebuilds -/

/-- The word with the operation code of `w` and those fields of `w` that the format has (R62), all other bits zero. -/
def Format.reassemble (w : BitVec 32) : Format → BitVec 32
  | .Z => assemble (opField w) 0 0 0 0 0 0
  | .A => assemble (opField w) (raField w).number 0 0 0 0 0
  | .AC => assemble (opField w) (raField w).number 0 0 0 0 (imm8Field w).toNat
  | .AK => assemble (opField w) (raField w).number 0 0 (kField w).number 0 0
  | .AB => assemble (opField w) (raField w).number (rbField w).number 0 0 0 0
  | .I8 => assemble (opField w) 0 0 0 0 0 (imm8Field w).toNat
  | .K8 => assemble (opField w) 0 0 0 (kField w).number 0 (imm8Field w).toNat
  | .K16 => assemble (opField w) 0 0 0 (kField w).number 0 (imm16Field w).toNat
  | .F2 => assemble (opField w) (raField w).number (rbField w).number 0 0 (cntField w).toNat (startField w).toNat
  | .F3 => assemble (opField w) (raField w).number (rbField w).number (rcField w).number 0 (cntField w).toNat
      (startField w).toNat
  | .M => assemble (opField w) 0 0 0 0 (cntField w).toNat (startField w).toNat

/-- The must-be-zero bits of a format are those that its fields leave out (R62): they are all zero exactly when the
fields make up the whole word. -/
theorem Format.mustBeZero_iff (f : Format) (w : BitVec 32) :
    (f.mustBeZero.all fun r => bits w r.1 r.2 == 0) = true ↔ f.reassemble w = w := by
  have hw := w.isLt
  rw [← BitVec.toNat_inj]
  cases f <;> simp [mustBeZero, reassemble, assemble, opField_eq, bits_eq] <;> omega

/-- Each row of the operation-code map takes its operands from fields of its format: the command's word is the one that
the format rebuilds. -/
theorem encode_of_opcodeMap {w : BitVec 32} {f : Format} {i : Instr} (h : opcodeMap w = some (f, i)) :
    encode i = f.reassemble w := by
  unfold opcodeMap at h
  split at h <;> cases h <;> simp only [encode, Format.reassemble, *]

/-! ## The decoder's two tests -/

theorem decode_of_opcodeMap_none {w : BitVec 32} (h : opcodeMap w = none) : decode w = .error .unknownOp := by
  simp only [decode, h]

/-- A word whose operation code is in the map decodes exactly when it is the word of the command found there. -/
theorem decode_of_opcodeMap {w : BitVec 32} {f : Format} {i : Instr} (h : opcodeMap w = some (f, i)) :
    decode w = if encode i = w then .ok i else .error .reservedBits := by
  simp only [decode, h, f.mustBeZero_iff, encode_of_opcodeMap h]

theorem encode_of_decode {w : BitVec 32} {i : Instr} (h : decode w = .ok i) : encode i = w := by
  cases hmap : opcodeMap w with
  | none =>
    rw [decode_of_opcodeMap_none hmap] at h
    cases h
  | some row =>
    rw [decode_of_opcodeMap hmap] at h
    split at h
    next hword =>
      cases h
      exact hword
    next => cases h

theorem decode_eq_unknownOp_iff {w : BitVec 32} : decode w = .error .unknownOp ↔ opcodeMap w = none := by
  refine ⟨fun h => ?_, decode_of_opcodeMap_none⟩
  cases hmap : opcodeMap w with
  | none => rfl
  | some row =>
    rw [decode_of_opcodeMap hmap] at h
    split at h <;> cases h

/-- An operation code is in no row of the map exactly when it is in one of the seven gaps of R65 (a): the code of a row is
in none of them, and a code that differs from all 33 is in one. -/
theorem opcodeMap_eq_none_iff {w : BitVec 32} : opcodeMap w = none ↔
    ∃ lo hi : Nat, (lo, hi) ∈ [(0x06, 0x0F), (0x16, 0x1F), (0x26, 0x2F), (0x32, 0x3F), (0x44, 0x47), (0x4D, 0x4F),
      (0x54, 0xFF)] ∧ lo ≤ opField w ∧ opField w ≤ hi := by
  have hop : opField w < 256 := bits_lt w 31 24
  simp only [List.mem_cons, List.not_mem_nil, Prod.mk.injEq, or_false, or_and_right, exists_or, and_assoc]
  unfold opcodeMap
  split <;> simp_all
  omega

/-! ## The fields of an assembled word -/

section
variable {op ra rb rc k cnt low : Nat}

@[simp] theorem raField_assemble {r : Reg} (h : FieldsFit op r.number rb rc k cnt low) :
    raField (assemble op r.number rb rc k cnt low) = r := by
  rw [raField, bits_assemble_ra h, Reg.ofNumber_number]

@[simp] theorem rbField_assemble {r : Reg} (h : FieldsFit op ra r.number rc k cnt low) :
    rbField (assemble op ra r.number rc k cnt low) = r := by
  rw [rbField, bits_assemble_rb h, Reg.ofNumber_number]

@[simp] theorem rcField_assemble {r : Reg} (h : FieldsFit op ra rb r.number k cnt low) :
    rcField (assemble op ra rb r.number k cnt low) = r := by
  rw [rcField, bits_assemble_rc h, Reg.ofNumber_number]

@[simp] theorem kField_assemble {b : BufSel} (h : FieldsFit op ra rb rc b.number cnt low) :
    kField (assemble op ra rb rc b.number cnt low) = b := by
  rw [kField, bits_assemble_k h, BufSel.ofNumber_number]

@[simp] theorem cntField_assemble {c s : BitVec 7} (h : FieldsFit op ra rb rc k c.toNat s.toNat) :
    cntField (assemble op ra rb rc k c.toNat s.toNat) = c := by
  have hs := s.isLt
  rw [cntField, bits_assemble_cnt h c.isLt (by omega), BitVec.ofNat_toNat, BitVec.setWidth_eq]

@[simp] theorem startField_assemble {s : BitVec 7} (h : FieldsFit op ra rb rc k cnt s.toNat) :
    startField (assemble op ra rb rc k cnt s.toNat) = s := by
  rw [startField, bits_assemble_start h s.isLt, BitVec.ofNat_toNat, BitVec.setWidth_eq]

@[simp] theorem imm8Field_assemble {b : Byte} (h : FieldsFit op ra rb rc k cnt b.toNat) :
    imm8Field (assemble op ra rb rc k cnt b.toNat) = b := by
  rw [imm8Field, bits_assemble_imm8 h b.isLt, BitVec.ofNat_toNat, BitVec.setWidth_eq]

@[simp] theorem imm16Field_assemble {n : BitVec 16} (h : FieldsFit op ra rb rc k 0 n.toNat) :
    imm16Field (assemble op ra rb rc k 0 n.toNat) = n := by
  rw [imm16Field, bits_assemble_low h, Nat.zero_mul, Nat.zero_add, BitVec.ofNat_toNat, BitVec.setWidth_eq]

end

/-- Operands fit their fields (R61), as far as the half word below `k` does. -/
theorem FieldsFit.ofOperands (ra rb rc : Reg) (k : BufSel) {cnt low : Nat} (h : cnt * 256 + low < 65536) :
    ∀ op < 256, FieldsFit op ra.number rb.number rc.number k.number cnt low :=
  fun _ hop => ⟨hop, ra.number_lt, rb.number_lt, rc.number_lt, k.number_lt, h⟩

/-- The map finds a command again under its own word. The cases are the formats of R62 in order; a field that a format
does not have is that of `x0`, of `S`, or zero. -/
theorem opcodeMap_encode (i : Instr) : ∃ f, opcodeMap (encode i) = some (f, i) := by
  cases i with
  | nop | rst | bswap | mtclr | crcinit | crcbuf | lrcinit | lrcbuf | stuff | unstuff | frmenc | frmdec => exact ⟨.Z, rfl⟩
  | setx r | getx r | extenc r | extdec r | crcget r | lrcget r =>
    have fit : ∀ op < 256, FieldsFit op r.number 0 0 0 0 0 := .ofOperands r .x0 .x0 .S (by decide)
    exact ⟨.A, by simp [encode, opcodeMap, opField_assemble, fit]⟩
  | csrr r b | csrw r b =>
    have hb := b.isLt
    have fit : ∀ op < 256, FieldsFit op r.number 0 0 0 0 b.toNat := .ofOperands r .x0 .x0 .S (by omega)
    exact ⟨.AC, by simp [encode, opcodeMap, opField_assemble, fit]⟩
  | bget r k | bputx r k =>
    have fit : ∀ op < 256, FieldsFit op r.number 0 0 k.number 0 0 := .ofOperands r .x0 .x0 k (by decide)
    exact ⟨.AK, by simp [encode, opcodeMap, opField_assemble, fit]⟩
  | flpack r r1 | flunpk r r1 =>
    have fit : ∀ op < 256, FieldsFit op r.number r1.number 0 0 0 0 := .ofOperands r r1 .x0 .S (by decide)
    exact ⟨.AB, by simp [encode, opcodeMap, opField_assemble, fit]⟩
  | crcupd b | lrcseed b | lrcupd b =>
    have hb := b.isLt
    have fit : ∀ op < 256, FieldsFit op 0 0 0 0 0 b.toNat := .ofOperands .x0 .x0 .x0 .S (by omega)
    exact ⟨.I8, by simp [encode, opcodeMap, opField_assemble, fit]⟩
  | bput k b =>
    have hb := b.isLt
    have fit : ∀ op < 256, FieldsFit op 0 0 0 k.number 0 b.toNat := .ofOperands .x0 .x0 .x0 k (by omega)
    exact ⟨.K8, by simp [encode, opcodeMap, opField_assemble, fit]⟩
  | bnew k n | bseek k n =>
    have hn := n.isLt
    have fit : ∀ op < 256, FieldsFit op 0 0 0 k.number 0 n.toNat := .ofOperands .x0 .x0 .x0 k (by omega)
    exact ⟨.K16, by simp [encode, opcodeMap, opField_assemble, fit]⟩
  | bfext r r1 c st =>
    have fit : ∀ op < 256, FieldsFit op r.number r1.number 0 0 c.toNat st.toNat := .ofOperands r r1 .x0 .S (by omega)
    exact ⟨.F2, by simp [encode, opcodeMap, opField_assemble, fit]⟩
  | bffill r r1 r2 c st =>
    have fit : ∀ op < 256, FieldsFit op r.number r1.number r2.number 0 c.toNat st.toNat :=
      .ofOperands r r1 r2 .S (by omega)
    exact ⟨.F3, by simp [encode, opcodeMap, opField_assemble, fit]⟩
  | mtset c st =>
    have fit : ∀ op < 256, FieldsFit op 0 0 0 0 c.toNat st.toNat := .ofOperands .x0 .x0 .x0 .S (by omega)
    exact ⟨.M, by simp [encode, opcodeMap, opField_assemble, fit]⟩

theorem decode_encode (i : Instr) : decode (encode i) = .ok i := by
  obtain ⟨f, hmap⟩ := opcodeMap_encode i
  rw [decode_of_opcodeMap hmap, if_pos rfl]

end Sys2Proof
end

section
/-! SUPPORT. Which commands can raise `IllegalCommand` (R104, R105): `CSRR` and `CSRW` of a number out of range, and no
other. -/

namespace Sys2Proof.Machine

/-! ## The control registers by number -/

/-- The numbers past 13 name no control register (R22). -/
theorem Csr.ofNumber_eq_none_iff {n : Nat} : Csr.ofNumber n = none ↔ 13 < n := by
  unfold Csr.ofNumber
  split <;> simp_all
  omega

/-- The numbers past 1 name no control register that can be written (R24). -/
theorem State.writeCsr_ofNumber_eq_none_iff {n : Nat} (s : State) (v : Word) :
    ((Csr.ofNumber n).bind fun c => s.writeCsr c v) = none ↔ 1 < n := by
  unfold Csr.ofNumber
  split <;> simp_all [State.writeCsr]
  omega

/-! ## Commands that are not well formed -/

/-- A command that is not well formed raises `IllegalCommand` (R65 (c), R104, R105). -/
theorem exec_illFormed {i : Instr} (hi : i.wellFormed = false) (s : State) :
    exec i s = .next (s.faulted .illegalCommand 0) := by
  cases i with
  | csrr rd csr =>
    have hnone : Csr.ofNumber csr.toNat = none := Csr.ofNumber_eq_none_iff.mpr (by simpa [Instr.wellFormed] using hi)
    simp only [exec, execCsrr, hnone, finish_error]
  | csrw rs csr =>
    have hnone : ((Csr.ofNumber csr.toNat).bind fun c => s.writeCsr c (s.reg rs)) = none :=
      (s.writeCsr_ofNumber_eq_none_iff (s.reg rs)).mpr (by simpa [Instr.wellFormed] using hi)
    simp only [exec, execCsrw, hnone, finish_error]
  | _ => cases hi

/-! ## Commands that are well formed -/

/-- A body that does not raise `IllegalCommand`. -/
def Effect.NotIllegal : Effect → Prop
  | .ok _ => True
  | .error (f, _) => f ≠ .illegalCommand

/-- A body that raises another fault under a condition. -/
theorem Effect.NotIllegal.guarded (c : Prop) [Decidable c] {f : FaultCode} {info : Nat} {e : Effect}
    (hf : f ≠ .illegalCommand) (he : e.NotIllegal) : Effect.NotIllegal (if c then .error (f, info) else e) := by
  split
  · exact hf
  · exact he

theorem Effect.NotIllegal.putBytes (k : BufSel) (bytes : List Byte) (s : State) :
    Effect.NotIllegal (putBytes k bytes s) :=
  .guarded _ nofun trivial

theorem Effect.NotIllegal.replaceD (bytes : List Byte) (s : State) : Effect.NotIllegal (replaceD bytes s) :=
  .guarded _ nofun trivial

theorem Effect.NotIllegal.map (g : State → State) {e : Effect} (he : e.NotIllegal) : Effect.NotIllegal (e.map g) := by
  cases e with
  | ok u => trivial
  | error x => exact he

theorem FaultCode.eq_illegalCommand_of_code {f : FaultCode} (h : f.code = 1) : f = .illegalCommand := by
  cases f <;> revert h <;> decide

/-- The state `t` was reached with the response `(0, 1)`, that of `IllegalCommand`. -/
def AnsweredIllegal (s t : State) : Prop :=
  t.responses = s.responses ++ [{ rdata := 0, fault := 1 }]

theorem not_answeredIllegal_answered (s u : State) (d : Word) : ¬AnsweredIllegal s (u.answered d) := by
  simp [AnsweredIllegal]

theorem finish_not_answeredIllegal {s t : State} {e : Effect} (h : finish s e = .next t) (he : e.NotIllegal) :
    ¬AnsweredIllegal s t := by
  intro ht
  rcases finish_cases h with ⟨u, -, rfl⟩ | ⟨f, info, rfl, rfl⟩
  · exact not_answeredIllegal_answered s u 0 ht
  · have hcode : f.code = 1 := by simpa [AnsweredIllegal] using ht
    exact he (FaultCode.eq_illegalCommand_of_code hcode)

/-- A well-formed command is not answered `IllegalCommand`. The cases that are not named always complete. -/
theorem exec_not_answeredIllegal {i : Instr} {s t : State} (hi : i.wellFormed = true) (h : exec i s = .next t) :
    ¬AnsweredIllegal s t := by
  cases i with
  | csrr rd csr =>
    refine finish_not_answeredIllegal h ?_
    split
    next => trivial
    next hnone =>
      have hcsr : 13 < csr.toNat := Csr.ofNumber_eq_none_iff.mp hnone
      exact absurd hcsr (by simpa [Instr.wellFormed] using hi)
  | csrw rs csr =>
    refine finish_not_answeredIllegal h ?_
    split
    next => trivial
    next hnone =>
      have hcsr : 1 < csr.toNat := (s.writeCsr_ofNumber_eq_none_iff (s.reg rs)).mp hnone
      exact absurd hcsr (by simpa [Instr.wellFormed] using hi)
  | bnew | bget | bseek | bfext | bffill | extdec => exact finish_not_answeredIllegal h (.guarded _ nofun trivial)
  | mtset => exact finish_not_answeredIllegal h (.guarded _ nofun (.guarded _ nofun trivial))
  | bput | bputx | extenc => exact finish_not_answeredIllegal h (.putBytes ..)
  | stuff | frmenc => exact finish_not_answeredIllegal h (.replaceD ..)
  | unstuff =>
    refine finish_not_answeredIllegal h ?_
    split
    · exact nofun
    · exact .replaceD ..
  | frmdec => exact finish_not_answeredIllegal h (.map _ (.replaceD ..))
  | _ =>
    cases h
    exact not_answeredIllegal_answered _ _ _

end Sys2Proof.Machine
end

section
/-! PROOF. The statements of the family `30_encoding.md`: decoder and encoder are inverse to each other, and which words
are illegal. -/

namespace Sys2Proof.Machine

/-- Settles O12: the map finds the command under its own word, and that word is made of the format's fields alone. -/
theorem decodeReadsBackEveryEncodedCommand : Obligations.DecodeReadsBackEveryEncodedCommand :=
  decode_encode

/-- Settles O13: a word without a must-be-zero bit is the one that its format rebuilds from its fields. -/
theorem everyDecodedWordIsItsCommandsEncoding : Obligations.EveryDecodedWordIsItsCommandsEncoding :=
  fun _ _ => encode_of_decode

/-- Settles O14, by the gaps of the operation-code map. -/
theorem unknownOperationCodesAreTheListedOnes : Obligations.UnknownOperationCodesAreTheListedOnes := by
  intro w
  rw [← opField_eq w]
  exact decode_eq_unknownOp_iff.trans opcodeMap_eq_none_iff

/-- Settles O15: the word of `i` runs `i`, which raises `IllegalCommand` if it is not well formed and only then. -/
theorem illFormedCommandsAreTheOnesAnsweredIllegal : Obligations.IllFormedCommandsAreTheOnesAnsweredIllegal := by
  intro i s t d rest hin hstep
  rw [step_command_ok hin (decode_encode i)] at hstep
  constructor
  · intro hanswer
    by_contra hi
    exact exec_not_answeredIllegal (Bool.of_not_eq_false hi) hstep hanswer
  · intro hi
    rw [exec_illFormed hi] at hstep
    cases hstep
    rfl

/-- Settles O5, by the step's equation for a word that does not decode and the frame of `raise`. -/
theorem stepFaultsOnAnIllegalWord : Obligations.StepFaultsOnAnIllegalWord := by
  intro s w d rest e hin hdec
  exact ⟨_, step_command_error hin hdec, rfl, State.faulted_faultedAs (s.accept w d rest) .illegalCommand 0⟩

/-- Settles O16: the decoder runs on each of the eight words. -/
theorem wordsOfTheSpecDecodeAsWritten : Obligations.WordsOfTheSpecDecodeAsWritten :=
  ⟨rfl, rfl, rfl, rfl, rfl, rfl, rfl, rfl⟩

end Sys2Proof.Machine
end

section
/-! SUPPORT. What the system and buffer commands leave alone, said once for each way such a command ends, and what they
write: the words of the family, the control registers by number, and the byte stored at a cursor. -/

namespace Sys2Proof.Machine

/-! ## The words of the family -/

/-- A word of the formats Z, A, AC, AK, K8 and K16 is the sum of its fields (R61, R62). -/
theorem toNat_assemble_ra_k_low {op ra k low : Nat} (hop : op < 256) (hra : ra < 4) (hk : k < 2) (hlow : low < 65536) :
    (assemble op ra 0 0 k 0 low).toNat = op * 2 ^ 24 + ra * 2 ^ 22 + k * 2 ^ 16 + low := by
  have hfit : FieldsFit op ra 0 0 k 0 low := ⟨hop, hra, by decide, by decide, hk, by omega⟩
  rw [toNat_assemble hfit]
  omega

/-- The word of the format A: an operation code and a register. -/
theorem toNat_assemble_ra {op : Nat} (hop : op < 256) (r : Reg) :
    (assemble op r.number 0 0 0 0 0).toNat = op * 2 ^ 24 + r.number * 2 ^ 22 := by
  rw [toNat_assemble_ra_k_low hop r.number_lt (by decide) (by decide)]
  omega

/-- The word of the format AC: a register and a control register. -/
theorem toNat_assemble_ra_imm8 {op : Nat} (hop : op < 256) (r : Reg) (b : Byte) :
    (assemble op r.number 0 0 0 0 b.toNat).toNat = op * 2 ^ 24 + r.number * 2 ^ 22 + b.toNat := by
  rw [toNat_assemble_ra_k_low hop r.number_lt (by decide) (by omega)]
  omega

/-- The word of the format AK: a register and a buffer. -/
theorem toNat_assemble_ra_k {op : Nat} (hop : op < 256) (r : Reg) (k : BufSel) :
    (assemble op r.number 0 0 k.number 0 0).toNat = op * 2 ^ 24 + r.number * 2 ^ 22 + k.number * 2 ^ 16 := by
  rw [toNat_assemble_ra_k_low hop r.number_lt k.number_lt (by decide)]
  omega

/-- The word of the formats K8 and K16: a buffer and an immediate. -/
theorem toNat_assemble_k_imm {op w : Nat} (hop : op < 256) (k : BufSel) (n : BitVec w) (hw : n.toNat < 65536) :
    (assemble op 0 0 0 k.number 0 n.toNat).toNat = op * 2 ^ 24 + k.number * 2 ^ 16 + n.toNat := by
  rw [toNat_assemble_ra_k_low hop (by decide) k.number_lt hw]
  omega

/-! ## How a command of the family ends -/

/-- A body that raises a fault: the command changes nothing but what R203 lists. -/
theorem finish_faultedAs {s : State} {e : Effect} {f : FaultCode} {info : Nat} (h : e = .error (f, info)) :
    ∃ t, finish s e = .next t ∧ FaultedAs f info s t := by
  subst h
  exact ⟨_, rfl, State.faulted_faultedAs s f info⟩

/-- A command that writes registers and buffers only leaves the rest of the state alone. -/
theorem Leaves.sameRest {i : Instr} {s u : State} (h : Leaves i s u) (hi : ¬writesUnits i) (d : Word) :
    SameRest s (u.answered d) := by
  have hrst : i ≠ .rst := by
    rintro rfl
    exact hi rfl
  obtain ⟨hsums, hfcs, hmt, hstatus⟩ := h.sameUnits hi
  obtain ⟨hport, -, hrecord, -⟩ := h.sameOutcome hrst
  exact ⟨hsums, hstatus, hfcs, hrecord, hmt, hport⟩

/-- A command that only answers leaves every element of state alone. -/
theorem State.answered_frame (s : State) (d : Word) :
    Answers d s (s.answered d) ∧ SameRegs s (s.answered d) ∧ SameRest s (s.answered d) ∧ SameBufs s (s.answered d) :=
  ⟨rfl, fun _ => rfl, Leaves.sameRest (i := .nop) rfl nofun d, ⟨rfl, rfl, fun _ => rfl⟩, rfl, rfl, fun _ => rfl⟩

/-- A command that completes with a write to `rd` leaves all else alone (R11). -/
theorem State.setReg_frame (s : State) (rd : Reg) (v : Nat) :
    SameRegsBut rd s ((s.setReg rd v).answered 0) ∧ SameRest s ((s.setReg rd v).answered 0) ∧
      SameBufs s ((s.setReg rd v).answered 0) ∧ Answers 0 s ((s.setReg rd v).answered 0) :=
  ⟨fun _ hr => s.reg_setReg_other hr v, Leaves.sameRest (i := .setx rd) ⟨v, rfl⟩ nofun 0,
    ⟨⟨rfl, rfl, fun _ => rfl⟩, rfl, rfl, fun _ => rfl⟩, rfl⟩

/-- Buffer `k` is what the command wrote to it. -/
theorem State.buf_setBuf_answered (s : State) (k : BufSel) (b : Buffer) (d : Word) :
    ((s.setBuf k b).answered d).buf k = b := by
  rw [State.buf_answered, State.buf_setBuf_self]

/-- Writing one buffer leaves the other as it was, in its length, its cursor and every byte. -/
theorem State.sameBuf_setBuf_answered (s : State) {k j : BufSel} (hj : j ≠ k) (b : Buffer) :
    SameBuf j s ((s.setBuf k b).answered 0) := by
  rw [SameBuf, State.buf_answered, s.buf_setBuf_other hj]
  exact ⟨rfl, rfl, fun _ => rfl⟩

/-- A command that completes with a write to buffer `k` leaves all else alone. -/
theorem State.setBuf_frame (s : State) (k : BufSel) (b : Buffer) :
    (∀ j, j ≠ k → SameBuf j s ((s.setBuf k b).answered 0)) ∧ SameRegs s ((s.setBuf k b).answered 0) ∧
      SameRest s ((s.setBuf k b).answered 0) ∧ Answers 0 s ((s.setBuf k b).answered 0) := by
  refine ⟨fun _ hj => s.sameBuf_setBuf_answered hj b, s.reg_setBuf k b, Leaves.sameRest (i := .bseek k 0) ⟨b, rfl⟩ nofun 0, ?_⟩
  rw [Answers, State.answered_responses, State.setBuf_responses]

/-- A command that completes with a write to `rd` and one to buffer `k` leaves all else alone. -/
theorem State.setReg_setBuf_frame (s : State) (rd : Reg) (v : Nat) (k : BufSel) (b : Buffer) :
    SameRegsBut rd s (((s.setReg rd v).setBuf k b).answered 0) ∧
      (∀ j, j ≠ k → SameBuf j s (((s.setReg rd v).setBuf k b).answered 0)) ∧
      SameRest s (((s.setReg rd v).setBuf k b).answered 0) ∧ Answers 0 s (((s.setReg rd v).setBuf k b).answered 0) := by
  obtain ⟨hother, hregs, hrest, hanswer⟩ := (s.setReg rd v).setBuf_frame k b
  exact ⟨fun r hr => (hregs r).trans (s.reg_setReg_other hr v), hother, hrest, hanswer⟩

/-- The command completed with the response `(0, 0)` and left all but the checksum accumulators alone. -/
abbrev CompletesButSums (s t : State) : Prop :=
  SameRegs s t ∧ t.status = s.status ∧ SameFcs s t ∧ SameRecord s t ∧ t.mt = s.mt ∧ SamePort s t ∧ SameBufs s t ∧
    Answers 0 s t

/-- A command that completes with a write to an accumulator leaves all but the accumulators alone (R13, R14). -/
theorem State.withSums_frame (s : State) (c : BitVec 16) (l : Byte) :
    CompletesButSums s (State.answered { s with crc := c, lrc := l } 0) :=
  ⟨fun _ => rfl, rfl, ⟨rfl, rfl⟩, ⟨rfl, rfl, rfl⟩, rfl, ⟨rfl, rfl, rfl, rfl⟩,
    ⟨⟨rfl, rfl, fun _ => rfl⟩, rfl, rfl, fun _ => rfl⟩, rfl⟩

/-! ## The control registers by number -/

/-- `CSRR` of a number that names a control register completes with its value in `rd` (R104). -/
theorem exec_csrr_of_number {rd : Reg} {csr : Byte} {s : State} {c : Csr} (hc : Csr.ofNumber csr.toNat = some c) :
    exec (.csrr rd csr) s = .next ((s.setReg rd (s.csrValue c)).answered 0) := by
  simp only [exec, execCsrr, hc, finish_ok]

/-- `CSRW` of a number that names a control register which can be written completes with the write (R24, R105). -/
theorem exec_csrw_of_writeCsr {rs : Reg} {csr : Byte} {s u : State} {c : Csr} (hc : Csr.ofNumber csr.toNat = some c)
    (hu : s.writeCsr c (s.reg rs) = some u) : exec (.csrw rs csr) s = .next (u.answered 0) := by
  simp only [exec, execCsrw, hc, Option.bind_some, hu, finish_ok]

/-- `STATUS` is the sum of its flags, each at its own bit (R23). -/
theorem Status.toNat_word (f : Status) : f.word.toNat =
    f.valid.toNat + 2 * f.expv.toNat + 4 * f.sync.toNat + 8 * f.esc.toNat + 16 * f.trunc.toNat + 32 * f.err.toNat := by
  obtain ⟨valid, expv, sync, esc, trunc, err⟩ := f
  revert valid expv sync esc trunc err
  decide

/-- The control registers in the order of their numbers (R22). -/
def Csr.inOrder : List Csr :=
  [.crc, .lrc, .status, .fcsexp, .fcsact, .fcause, .fcmd, .finfo, .slen, .soff, .dlen, .doff, .capr, .xlenr]

/-- A number names the control register at its place in the order. -/
theorem Csr.ofNumber_eq_getElem? (n : Nat) : Csr.ofNumber n = Csr.inOrder[n]? := by
  rcases Nat.lt_or_ge 13 n with hn | hn
  · rw [Csr.ofNumber_eq_none_iff.mpr hn, List.getElem?_eq_none hn]
  · interval_cases n <;> rfl

/-- Every control register reads as a value that fits 32 bits, the narrowest XLEN (R3, R22). -/
theorem Inv.csrValue_lt {s : State} (h : Inv s) (c : Csr) : s.csrValue c < 2 ^ s.config.xlen := by
  obtain ⟨⟨hxlen, hxlen'⟩, -, hcap⟩ := h.config
  obtain ⟨hSoff, hSlen, -⟩ := h.bufS
  obtain ⟨hDoff, hDlen, -⟩ := h.bufD
  have h32 : s.csrValue c < 2 ^ 32 := by
    cases c with
    | crc | lrc | status | fcsexp | fcsact | fcause | fcmd | finfo =>
      exact lt_of_lt_of_le (BitVec.isLt _) (by decide)
    | slen | soff | dlen | doff | capr | xlenr =>
      simp only [State.csrValue]
      omega
  exact lt_of_lt_of_le h32 (Nat.pow_le_pow_right (by decide) hxlen)

/-! ## The bytes of a buffer -/

/-- A new buffer holds `n` zero bytes (R107). -/
theorem Buffer.contents_zeros (n : Nat) : (Buffer.zeros n).contents = List.replicate n 0 := by
  have hread (a : Nat) : Memory.readBytes [] a n = List.replicate n 0 := by
    induction n generalizing a with
    | zero => rfl
    | succ n ih => rw [Memory.readBytes, ih, Memory.read_nil, List.replicate_succ, Memory.unlisted]
  exact hread 0

/-- Where there is room at the cursor, a command that puts the byte `b` stores it there, moves the cursor past it and
leaves all else alone (R41, R43). -/
theorem finish_putByte {s : State} {k : BufSel} (b : Byte) (hroom : (s.buf k).off + 1 ≤ (s.buf k).len)
    (hwf : (s.buf k).bytes.wf) : ∃ t, finish s (putBytes k [b] s) = .next t ∧
      (t.buf k).bytes.read (s.buf k).off = b ∧
      (∀ a, a ≠ (s.buf k).off → (t.buf k).bytes.read a = (s.buf k).bytes.read a) ∧
      (t.buf k).len = (s.buf k).len ∧ (t.buf k).off = (s.buf k).off + 1 ∧
      (∀ j, j ≠ k → SameBuf j s t) ∧ SameRegs s t ∧ SameRest s t ∧ Answers 0 s t := by
  have hread (a : Nat) : ((s.buf k).put [b]).bytes.read a = if a = (s.buf k).off then b else (s.buf k).bytes.read a :=
    Memory.read_write hwf (s.buf k).off b a
  refine ⟨(s.setBuf k ((s.buf k).put [b])).answered 0, ?_, ?_, fun a ha => ?_, ?_, ?_, s.setBuf_frame k _⟩
  · rw [putBytes_fits hroom, finish_ok]
  · rw [State.buf_setBuf_answered, hread, if_pos rfl]
  · rw [State.buf_setBuf_answered, hread, if_neg ha]
  · rw [State.buf_setBuf_answered, Buffer.put_len]
  · rw [State.buf_setBuf_answered, Buffer.put_off, List.length_singleton]

end Sys2Proof.Machine
end

section
/-! PROOF. The statements of the family `40_system_buffer.md`: what each system and buffer command writes, what it leaves
alone, and the fault it raises. -/

namespace Sys2Proof.Machine

/-- Settles O19: a number up to 13 names the control register at its place in the order of R22, whose value fits XLEN bits
by the invariant; past 13 the command is not well formed. -/
theorem csrrReadsTheNumberedRegister : Obligations.CsrrReadsTheNumberedRegister := by
  intro rd csr s hs
  refine ⟨toNat_assemble_ra_imm8 (by decide) rd csr, fun hcsr => ?_, fun hcsr => ?_⟩
  · obtain ⟨c, hc⟩ : ∃ c, Csr.ofNumber csr.toNat = some c :=
      Option.ne_none_iff_exists'.mp fun hnone => (Csr.ofNumber_eq_none_iff.mp hnone).not_ge hcsr
    obtain ⟨⟨-, hxlen⟩, -⟩ := hs.config
    have hrd : ((s.setReg rd (s.csrValue c)).reg rd).toNat = s.csrValue c :=
      s.toNat_reg_setReg rd hxlen (hs.csrValue_lt c)
    refine ⟨_, exec_csrr_of_number hc, ?_, s.setReg_frame rd _⟩
    rw [State.reg_answered, hrd, ← Status.toNat_word]
    change _ = (Csr.inOrder.map s.csrValue)[csr.toNat]?
    rw [List.getElem?_map, ← Csr.ofNumber_eq_getElem?, hc, Option.map_some]
  · exact ⟨_, exec_illFormed (by simpa [Instr.wellFormed] using hcsr) s, s.faulted_faultedAs .illegalCommand 0⟩

/-- Settles O20: the numbers 0 and 1 name `CRC` and `LRC`, which take the low bits of the register; a command with any
other number is not well formed. -/
theorem csrwWritesOnlyTheChecksums : Obligations.CsrwWritesOnlyTheChecksums := by
  intro rs csr s
  refine ⟨toNat_assemble_ra_imm8 (by decide) rs csr, fun hcsr => ?_, fun hcsr => ?_, fun hcsr => ?_⟩
  · exact ⟨_, exec_csrw_of_writeCsr (congrArg Csr.ofNumber hcsr) rfl, BitVec.toNat_setWidth .., rfl,
      s.withSums_frame ((s.reg rs).setWidth 16) s.lrc⟩
  · exact ⟨_, exec_csrw_of_writeCsr (congrArg Csr.ofNumber hcsr) rfl, BitVec.toNat_setWidth .., rfl,
      s.withSums_frame s.crc ((s.reg rs).setWidth 8)⟩
  · exact ⟨_, exec_illFormed (by simpa [Instr.wellFormed] using hcsr) s, s.faulted_faultedAs .illegalCommand 0⟩

/-- Settles O21, by whether `n` bytes fit the capacity. -/
theorem bnewMakesAZeroBuffer : Obligations.BnewMakesAZeroBuffer := by
  intro k n s
  refine ⟨toNat_assemble_k_imm (by decide) k n n.isLt, fun hn => ?_, fun hn => finish_faultedAs (if_pos hn)⟩
  refine ⟨(s.setBuf k (Buffer.zeros n.toNat)).answered 0, ?_, ?_, ?_, ?_, s.setBuf_frame k _⟩
  · simp only [exec, execBnew, if_neg (Nat.not_lt.mpr hn), finish_ok]
  · rw [State.buf_setBuf_answered, Buffer.zeros_len]
  · rw [State.buf_setBuf_answered, Buffer.zeros_off]
  · rw [State.buf_setBuf_answered, Buffer.contents_zeros]

/-- Settles O22, by whether there is room for one byte at the cursor. -/
theorem bputStoresAtTheCursor : Obligations.BputStoresAtTheCursor := by
  intro k b s
  exact ⟨toNat_assemble_k_imm (by decide) k b (by omega), finish_putByte b,
    fun hfull => finish_faultedAs (putBytes_full hfull)⟩

/-- Settles O23: the byte that `BPUTX` puts is the register mod 256, whatever its upper bits. -/
theorem bputxStoresTheLowByteAtTheCursor : Obligations.BputxStoresTheLowByteAtTheCursor := by
  intro rs k s
  refine ⟨toNat_assemble_ra_k (by decide) rs k, fun hroom hwf => ?_, fun hfull => finish_faultedAs (putBytes_full hfull)⟩
  obtain ⟨t, hexec, hbyte, hframe⟩ := finish_putByte ((s.reg rs).setWidth 8) hroom hwf
  refine ⟨t, hexec, ?_, hframe⟩
  rw [hbyte, BitVec.toNat_setWidth]

/-- Settles O24, by whether there is a byte at the cursor; XLEN is at least 32, so the register holds the byte whole. -/
theorem bgetReadsAtTheCursor : Obligations.BgetReadsAtTheCursor := by
  intro rd k s
  refine ⟨toNat_assemble_ra_k (by decide) rd k, fun hlegal hroom => ?_, fun hend => finish_faultedAs (if_pos hend)⟩
  obtain ⟨⟨hxlen, hxlen'⟩, -⟩ := hlegal
  have hbyte : ((s.buf k).bytes.read (s.buf k).off).toNat < 2 ^ s.config.xlen :=
    lt_of_lt_of_le (BitVec.isLt _) (Nat.pow_le_pow_right (by decide) (by omega))
  obtain ⟨hregs, hother, hrest, hanswer⟩ := s.setReg_setBuf_frame rd ((s.buf k).bytes.read (s.buf k).off).toNat k
    { s.buf k with off := (s.buf k).off + 1 }
  refine ⟨_, ?_, ?_, hregs, ?_, ?_, fun a => ?_, hother, hrest, hanswer⟩
  · simp only [exec, execBget, if_neg (Nat.not_lt.mpr hroom), finish_ok]
  · rw [State.reg_answered, State.reg_setBuf, s.toNat_reg_setReg rd hxlen' hbyte]
  all_goals rw [State.buf_setBuf_answered]

/-- Settles O25, by whether the position is within the length. -/
theorem bseekMovesTheCursor : Obligations.BseekMovesTheCursor := by
  intro k pos s
  refine ⟨toNat_assemble_k_imm (by decide) k pos pos.isLt, fun hpos => ?_, fun hpos => finish_faultedAs (if_pos hpos)⟩
  refine ⟨(s.setBuf k { s.buf k with off := pos.toNat }).answered 0, ?_, ?_, ?_, fun a => ?_, s.setBuf_frame k _⟩
  · simp only [exec, execBseek, if_neg (Nat.not_lt.mpr hpos), finish_ok]
  all_goals rw [State.buf_setBuf_answered]

/-- Settles O2: each value is the one `State.resetWith` writes. -/
theorem rstRestoresEveryResetValue : Obligations.RstRestoresEveryResetValue := by
  refine ⟨rfl, fun s => ⟨s.toReset.answered 0, rfl, fun r => ?_, rfl, rfl, rfl, rfl, rfl, rfl, rfl, rfl,
    ⟨List.length_replicate, fun e he => List.eq_of_mem_replicate he⟩, fun k => ?_, ⟨rfl, rfl, rfl, rfl⟩, rfl⟩⟩
  · cases r <;> rfl
  · cases k <;> exact ⟨rfl, rfl, rfl⟩

/-- Settles O17: a data word below 2^XLEN is read back whole. -/
theorem setxLoadsTheDataWord : Obligations.SetxLoadsTheDataWord := by
  refine fun rd s => ⟨toNat_assemble_ra (by decide) rd, fun hlegal hdata => ?_⟩
  obtain ⟨⟨-, hxlen⟩, -⟩ := hlegal
  exact ⟨_, rfl, BitVec.eq_of_toNat_eq (s.toNat_reg_setReg rd hxlen hdata), s.setReg_frame rd _⟩

/-- Settles O18: neither command has a body that writes anything. -/
theorem nopAndGetxChangeNoState : Obligations.NopAndGetxChangeNoState :=
  ⟨rfl, toNat_assemble_ra (by decide), fun rs s =>
    ⟨s.answered 0, s.answered (s.reg rs), rfl, rfl, s.answered_frame 0, s.answered_frame (s.reg rs)⟩⟩

/-- Settles O26: exchanging the buffers twice gives each its own value back. -/
theorem bswapExchangesTheBuffers : Obligations.BswapExchangesTheBuffers :=
  ⟨rfl, fun s => ⟨State.answered { s with bufS := s.bufD, bufD := s.bufS } 0, _, rfl, ⟨rfl, rfl⟩, fun _ => rfl,
    Leaves.sameRest (i := .bswap) rfl nofun 0, rfl, rfl, rfl⟩⟩

end Sys2Proof.Machine
end

section
/-! SUPPORT. The functions of the bit-field unit (R120 to R124) bit by bit and by their size, and how its commands end: in
a register that takes a value below 2^XLEN, in a new mask table, or in a fault over a pair of 7-bit operands. -/

namespace Sys2Proof.Machine

/-! ## The words of the family -/

/-- A word of the formats AB, F2, F3 and M is the sum of its fields (R61, R62). -/
theorem toNat_assemble_range {op ra rb rc : Nat} (hop : op < 256) (hra : ra < 4) (hrb : rb < 4) (hrc : rc < 4)
    (cnt start : BitVec 7) : (assemble op ra rb rc 0 cnt.toNat start.toNat).toNat =
      op * 2 ^ 24 + ra * 2 ^ 22 + rb * 2 ^ 20 + rc * 2 ^ 18 + cnt.toNat * 2 ^ 8 + start.toNat := by
  have hfit : FieldsFit op ra rb rc 0 cnt.toNat start.toNat := ⟨hop, hra, hrb, hrc, by decide, by omega⟩
  rw [toNat_assemble hfit]
  omega

/-- The word of the format AB: two registers. -/
theorem toNat_assemble_ra_rb {op : Nat} (hop : op < 256) (ra rb : Reg) :
    (assemble op ra.number rb.number 0 0 0 0).toNat = op * 2 ^ 24 + ra.number * 2 ^ 22 + rb.number * 2 ^ 20 := by
  have hword := toNat_assemble_range hop ra.number_lt rb.number_lt (by decide : 0 < 4) 0 0
  simpa using hword

/-- The information word of a pair of operands is the sum of its two fields (R201). -/
theorem rangeInfo_eq (cnt start : BitVec 7) : rangeInfo cnt start = cnt.toNat * 256 + start.toNat := by
  have hstart : start.toNat < 2 ^ 8 := by omega
  rw [rangeInfo, ← Nat.shiftLeft_add_eq_or_of_lt hstart, Nat.shiftLeft_eq]

/-! ## Bit ranges -/

/-- An extracted range is a quotient and a remainder (R120). -/
theorem extractBits_eq_div_mod (v cnt start : Nat) : extractBits v cnt start = v / 2 ^ start % 2 ^ cnt := by
  rw [extractBits, Nat.one_shiftLeft, Nat.and_two_pow_sub_one_eq_mod, Nat.shiftRight_eq_div_pow]

/-- A range of at most `n` bits is a number of `n` bits. -/
theorem extractBits_lt {cnt n : Nat} (h : cnt ≤ n) (v start : Nat) : extractBits v cnt start < 2 ^ n := by
  rw [extractBits_eq_div_mod]
  exact (Nat.mod_lt _ (Nat.two_pow_pos cnt)).trans_le (Nat.pow_le_pow_right (by decide) h)

/-- Filling a range within `n` bits of an `n`-bit value gives an `n`-bit value (R122). -/
theorem fillBits_lt {v cnt start n : Nat} (hv : v < 2 ^ n) (hrange : cnt + start ≤ n) (new : Nat) :
    fillBits v cnt start new < 2 ^ n := by
  refine Nat.lt_pow_two_of_testBit _ fun i hi => ?_
  rw [testBit_fillBits, if_neg (by omega)]
  exact Nat.testBit_lt_two_pow (hv.trans_le (Nat.pow_le_pow_right (by decide) hi))

/-! ## Flag vectors -/

/-- One round of the loops of R123 and R124: the accumulator, with bit `p` set where the condition holds. -/
theorem testBit_setBitIf (c : Bool) (acc p n : Nat) :
    (if c then acc ||| 1 <<< p else acc).testBit n = true ↔ acc.testBit n = true ∨ (p = n ∧ c = true) := by
  cases c with
  | false => simp
  | true => simp [Nat.one_shiftLeft, Nat.testBit_two_pow]

/-- An entry of a table is its first, or one of the rest, counted one further. -/
theorem exists_getElem?_cons (e x : Option Nat) (mt : List (Option Nat)) (P : Nat → Prop) :
    (∃ j, (e :: mt)[j]? = some x ∧ P j) ↔ (e = x ∧ P 0) ∨ ∃ j, mt[j]? = some x ∧ P (j + 1) := by
  rw [← Nat.or_exists_add_one]
  simp

/-- The loop of `fromFlagSet` keeps what it has accumulated and adds the positions of the flagged entries (R123). -/
theorem testBit_fromFlagSetFrom (flags : Nat) (mt : List (Option Nat)) (i acc p : Nat) :
    (fromFlagSetFrom flags mt i acc).testBit p = true ↔
      acc.testBit p = true ∨ ∃ j, mt[j]? = some (some p) ∧ flags.testBit (i + j) = true := by
  induction mt generalizing i acc with
  | nil => simp [fromFlagSetFrom]
  | cons e mt ih =>
    rw [exists_getElem?_cons]
    cases e with
    | none => simp [fromFlagSetFrom, ih, Nat.add_assoc, Nat.add_comm 1]
    | some q =>
      rw [fromFlagSetFrom, ih, testBit_setBitIf, or_assoc]
      simp [Nat.add_assoc, Nat.add_comm 1]

/-- The loop of `toFlagSet` keeps what it has accumulated and adds the entries whose position is set (R124). -/
theorem testBit_toFlagSetFrom (v : Nat) (mt : List (Option Nat)) (i out n : Nat) :
    (toFlagSetFrom v mt i out).testBit n = true ↔
      out.testBit n = true ∨ ∃ p, (∃ j, mt[j]? = some (some p) ∧ i + j = n) ∧ v.testBit p = true := by
  induction mt generalizing i out with
  | nil => simp [toFlagSetFrom]
  | cons e mt ih =>
    simp only [exists_getElem?_cons]
    cases e with
    | none => simp [toFlagSetFrom, ih, Nat.add_assoc, Nat.add_comm 1]
    | some q =>
      rw [toFlagSetFrom, ih, testBit_setBitIf, or_assoc]
      simp [Nat.add_assoc, Nat.add_comm 1, or_and_right, exists_or, and_assoc]

/-- `fromFlagSet` sets the positions of the flagged entries (R123). -/
theorem testBit_fromFlagSet (mt : List (Option Nat)) (flags p : Nat) :
    (fromFlagSet mt flags).testBit p = true ↔ ∃ i, mt[i]? = some (some p) ∧ flags.testBit i = true := by
  simp [fromFlagSet, testBit_fromFlagSetFrom]

/-- `toFlagSet` sets the flags of the entries whose position is set (R124). -/
theorem testBit_toFlagSet (mt : List (Option Nat)) (v i : Nat) :
    (toFlagSet mt v).testBit i = true ↔ ∃ p, mt[i]? = some (some p) ∧ v.testBit p = true := by
  simp [toFlagSet, testBit_toFlagSetFrom]

/-- Packed positions are positions of the table (R123). -/
theorem fromFlagSet_lt {mt : List (Option Nat)} {n : Nat} (h : ∀ p ∈ mt.filterMap id, p < n) (flags : Nat) :
    fromFlagSet mt flags < 2 ^ n := by
  refine Nat.lt_pow_two_of_testBit _ fun p hp => Bool.eq_false_iff.mpr fun hset => ?_
  obtain ⟨i, hi, -⟩ := (testBit_fromFlagSet mt flags p).mp hset
  exact (h p (List.mem_filterMap.mpr ⟨some p, List.mem_of_getElem? hi, rfl⟩)).not_ge hp

/-- Unpacked flags are indices of the table (R124). -/
theorem toFlagSet_lt (mt : List (Option Nat)) (v : Nat) : toFlagSet mt v < 2 ^ mt.length := by
  refine Nat.lt_pow_two_of_testBit _ fun i hi => Bool.eq_false_iff.mpr fun hset => ?_
  obtain ⟨p, hp, -⟩ := (testBit_toFlagSet mt v i).mp hset
  rw [List.getElem?_eq_none hi] at hp
  exact nomatch hp

/-- No entry of an empty table holds a position. -/
theorem getElem?_replicate_none_ne (n i p : Nat) : (List.replicate n none)[i]? ≠ some (some p) :=
  fun h => nomatch List.eq_of_mem_replicate (List.mem_of_getElem? h)

/-- An empty table packs every flag vector to 0 (R130). -/
theorem fromFlagSet_replicate_none (n flags : Nat) : fromFlagSet (List.replicate n none) flags = 0 := by
  refine Nat.zero_of_testBit_eq_false fun p => Bool.eq_false_iff.mpr fun hset => ?_
  obtain ⟨i, hi, -⟩ := (testBit_fromFlagSet _ _ _).mp hset
  exact getElem?_replicate_none_ne n i p hi

/-- An empty table unpacks every value to 0 (R130). -/
theorem toFlagSet_replicate_none (n v : Nat) : toFlagSet (List.replicate n none) v = 0 := by
  refine Nat.zero_of_testBit_eq_false fun i => Bool.eq_false_iff.mpr fun hset => ?_
  obtain ⟨p, hp, -⟩ := (testBit_toFlagSet _ _ _).mp hset
  exact getElem?_replicate_none_ne n i p hp

/-! ## How a command of the family ends -/

/-- The fault over a pair of operands, its information word as a sum (R201, R203). -/
theorem finish_faultedAs_range {s : State} {e : Effect} {f : FaultCode} {cnt start : BitVec 7}
    (h : e = .error (f, rangeInfo cnt start)) :
    ∃ t, finish s e = .next t ∧ FaultedAs f (cnt.toNat * 256 + start.toNat) s t := by
  rw [rangeInfo_eq] at h
  exact finish_faultedAs h

/-- A command that completes with a write to `rd` of a value below 2^XLEN leaves that value there and all else alone. -/
theorem finish_setReg {s : State} {e : Effect} {rd : Reg} {v : Nat} (he : e = .ok (s.setReg rd v))
    (hxlen : s.config.xlen ≤ 64) (hv : v < 2 ^ s.config.xlen) : ∃ t, finish s e = .next t ∧
      (t.reg rd).toNat = v ∧ SameRegsBut rd s t ∧ SameRest s t ∧ SameBufs s t ∧ Answers 0 s t := by
  subst he
  exact ⟨_, rfl, s.toNat_reg_setReg rd hxlen hv, s.setReg_frame rd v⟩

/-- Zero is written as it is, whatever XLEN. -/
theorem State.reg_setReg_zero (s : State) (rd : Reg) : (s.setReg rd 0).reg rd = 0 := by
  rw [State.reg_setReg_self, Nat.zero_mod]
  rfl

/-- The command completed with the response `(0, 0)` and left all but the mask table alone. -/
abbrev CompletesButMasks (s t : State) : Prop :=
  SameRegs s t ∧ SameSums s t ∧ t.status = s.status ∧ SameFcs s t ∧ SameRecord s t ∧ SamePort s t ∧ SameBufs s t ∧
    Answers 0 s t

/-- A command that completes with a write to the mask table leaves all else alone (R18). -/
theorem State.withMasks_frame (s : State) (mt : List (Option Nat)) :
    CompletesButMasks s (State.answered { s with mt := mt } 0) :=
  ⟨fun _ => rfl, ⟨rfl, rfl⟩, rfl, ⟨rfl, rfl⟩, ⟨rfl, rfl, rfl⟩, ⟨rfl, rfl, rfl, rfl⟩,
    ⟨⟨rfl, rfl, fun _ => rfl⟩, rfl, rfl, fun _ => rfl⟩, rfl⟩

end Sys2Proof.Machine
end

section
/-! PROOF. The statements of the family `41_bitfield.md`: what each command of the bit-field unit writes, what it leaves
alone and the fault it raises, and the laws of R125 about its functions. -/

namespace Sys2Proof.Machine

/-- Settles O27, by whether the range lies within the register; its `cnt` bits then fit XLEN bits. -/
theorem bfextExtractsTheRange : Obligations.BfextExtractsTheRange := by
  intro rd rs1 cnt start s
  refine ⟨?_, fun hlegal hrange => ?_, fun hpast => finish_faultedAs_range (if_pos hpast)⟩
  · rw [encode, toNat_assemble_range (by decide) rd.number_lt rs1.number_lt (by decide) cnt start]
    omega
  · obtain ⟨⟨-, hxlen⟩, -⟩ := hlegal
    rw [← extractBits_eq_div_mod]
    exact finish_setReg (if_neg hrange.not_gt) hxlen (extractBits_lt (by omega) _ _)

/-- Settles O28, by whether the range lies within the register; filling it then keeps the value below 2^XLEN. -/
theorem bffillReplacesTheRange : Obligations.BffillReplacesTheRange := by
  intro rd rs1 rs2 cnt start s
  refine ⟨toNat_assemble_range (by decide) rd.number_lt rs1.number_lt rs2.number_lt cnt start,
    fun hs hrange => ?_, fun hpast => finish_faultedAs_range (if_pos hpast)⟩
  obtain ⟨⟨-, hxlen⟩, -⟩ := hs.config
  obtain ⟨t, hexec, hrd, hframe⟩ :=
    finish_setReg (if_neg hrange.not_gt) hxlen (fillBits_lt (hs.regs.reg rs1) hrange (s.reg rs2).toNat)
  exact ⟨t, hexec, fun i => by rw [hrd, testBit_fillBits], hframe⟩

/-- Settles O30, by the two tests in their order: the operands against XLEN, then the position against the other entries. -/
theorem mtsetSetsOneEntry : Obligations.MtsetSetsOneEntry := by
  intro idx pos s hs
  have hheld := heldElsewhere_iff idx.toNat pos.toNat s.mt 0
  refine ⟨?_, fun hpast => finish_faultedAs_range (if_pos hpast), fun hidx hpos hother => ?_,
    fun hidx hpos hfree => ?_⟩
  · rw [encode, toNat_assemble_range (by decide) (by decide) (by decide) (by decide) idx pos]
    omega
  · exact finish_faultedAs_range ((if_neg (by omega)).trans (if_pos (hheld.mpr hother)))
  · have hnot : ¬heldElsewhere idx.toNat pos.toNat s.mt 0 := fun h => by
      obtain ⟨j, hj, hp⟩ := hheld.mp h
      exact hfree j hj hp
    obtain ⟨hlen, -⟩ := hs.masks
    refine ⟨State.answered { s with mt := s.mt.set idx.toNat (some pos.toNat) } 0, ?_,
      List.getElem?_set_self (hlen ▸ hidx), fun j hj => List.getElem?_set_ne hj.symm, s.withMasks_frame _⟩
    rw [exec, execMtset, if_neg (by omega), if_neg hnot, finish_ok]

/-- Settles O31: `FLPACK` sets positions of the table only, which are below XLEN by the invariant. -/
theorem flpackSetsTheFlaggedPositions : Obligations.FlpackSetsTheFlaggedPositions := by
  refine fun rd rs1 s => ⟨toNat_assemble_ra_rb (by decide) rd rs1, fun hs => ?_⟩
  obtain ⟨⟨-, hxlen⟩, -⟩ := hs.config
  obtain ⟨-, hlt, -⟩ := hs.masks
  obtain ⟨t, hexec, hrd, hframe⟩ := finish_setReg (s := s) (rd := rd) rfl hxlen (fromFlagSet_lt hlt (s.reg rs1).toNat)
  exact ⟨t, hexec, fun p => by rw [hrd, testBit_fromFlagSet], hframe⟩

/-- Settles O32: `FLUNPK` sets indices of the table only, which has XLEN entries by the invariant. -/
theorem flunpkSetsTheFlagsOfSetPositions : Obligations.FlunpkSetsTheFlagsOfSetPositions := by
  refine fun rd rs1 s => ⟨toNat_assemble_ra_rb (by decide) rd rs1, fun hs => ?_⟩
  obtain ⟨⟨-, hxlen⟩, -⟩ := hs.config
  obtain ⟨hlen, -⟩ := hs.masks
  have hlt := toFlagSet_lt s.mt (s.reg rs1).toNat
  rw [hlen] at hlt
  obtain ⟨t, hexec, hrd, hframe⟩ := finish_setReg (s := s) (rd := rd) rfl hxlen hlt
  exact ⟨t, hexec, fun i => by rw [hrd, testBit_toFlagSet], hframe⟩

/-- Settles O33, bit by bit: a bit of a filled value is the new one within the range and the old one elsewhere. -/
theorem bitRangesFillAndExtractIndependently : Obligations.BitRangesFillAndExtractIndependently := by
  intro v cnt start x
  refine ⟨fun hx => Nat.eq_of_testBit_eq fun i => ?_, fun c2 s2 hapart =>
    ⟨Nat.eq_of_testBit_eq fun i => ?_, fun y => Nat.eq_of_testBit_eq fun i => ?_⟩⟩
  · rw [testBit_extractBits, testBit_fillBits]
    rcases Nat.lt_or_ge i cnt with hi | hi
    · simp [hi]
    · have hxi : x.testBit i = false := Nat.testBit_lt_two_pow (hx.trans_le (Nat.pow_le_pow_right (by decide) hi))
      simp [hi.not_gt, hxi]
  · rw [testBit_extractBits, testBit_extractBits, testBit_fillBits]
    rcases Nat.lt_or_ge i c2 with hi | hi
    · rw [if_neg (by omega)]
    · simp [hi.not_gt]
  · simp only [testBit_fillBits]
    by_cases hfirst : start ≤ i ∧ i < start + cnt
    · have hsecond : ¬(s2 ≤ i ∧ i < s2 + c2) := by omega
      rw [if_neg hsecond, if_pos hfirst, if_pos hfirst]
    · rw [if_neg hfirst, if_neg hfirst]

/-- Settles O34: a flag comes back from the entry it went through, and that is its own, because no other entry holds the same
position; a bit comes back from the position of the entry it went through, which is the only one that entry holds. -/
theorem flagSetsRoundTripThroughTheTable : Obligations.FlagSetsRoundTripThroughTheTable := by
  intro mt v hnodup
  rw [nodup_positions_iff] at hnodup
  refine ⟨fun i => ?_, fun p => ?_⟩
  · simp only [testBit_toFlagSet, testBit_fromFlagSet]
    constructor
    · rintro ⟨p, hi, j, hj, hset⟩
      obtain rfl := hnodup i j p hi hj
      exact ⟨hset, p, hi⟩
    · rintro ⟨hset, p, hi⟩
      exact ⟨p, hi, i, hi, hset⟩
  · simp only [testBit_toFlagSet, testBit_fromFlagSet, List.mem_iff_getElem?]
    constructor
    · rintro ⟨i, hi, q, hq, hset⟩
      obtain rfl : p = q := by simpa [hi] using hq
      exact ⟨hset, i, hi⟩
    · rintro ⟨hset, i, hi⟩
      exact ⟨i, hi, p, hi, hset⟩

/-- Settles O29: the table that `MTCLR` leaves holds no position, so both functions answer 0 over it. -/
theorem mtclrEmptiesTheTable : Obligations.MtclrEmptiesTheTable := by
  refine ⟨rfl, fun s => ?_⟩
  obtain ⟨hregs, hsums, hstatus, hfcs, hrecord, hport, hbufs, hanswer⟩ :=
    s.withMasks_frame (List.replicate s.config.xlen none)
  refine ⟨State.answered { s with mt := List.replicate s.config.xlen none } 0, rfl,
    ⟨List.length_replicate, fun e he => List.eq_of_mem_replicate he⟩,
    hregs, hsums, hstatus, hfcs, hrecord, hport, hbufs, hanswer, fun rd rs1 => ⟨_, _, rfl, rfl, ?_, ?_⟩⟩
  · rw [State.reg_answered, State.answered_mt, fromFlagSet_replicate_none, State.reg_setReg_zero]
  · rw [State.reg_answered, State.answered_mt, toFlagSet_replicate_none, State.reg_setReg_zero]

end Sys2Proof.Machine
end

section
/-! SUPPORT. The functions of the extended-value unit (R140, R141) by recursion on the value and on the bytes: the chain of a
value one byte at a time, the chain that the decoder reads, and the round trip of the two. -/

namespace Sys2Proof.Machine

/-! ## The loop of the encoder -/

/-- The low seven bits of a byte are its remainder mod 128 (R140). -/
theorem and_7F_eq_mod (n : Nat) : n &&& 0x7F = n % 128 := Nat.and_two_pow_sub_one_eq_mod n 7

/-- The continuation flag and a group share no bit: the byte is their sum (R140). -/
theorem flag_or_group_eq_add (v : Nat) : 0x80 ||| (v &&& 0x7F) = 128 + v % 128 := by
  have hgroup : v % 128 < 2 ^ 7 := Nat.mod_lt v (by decide)
  rw [and_7F_eq_mod]
  exact (Nat.two_pow_add_eq_or_of_lt hgroup 1).symm

@[simp] theorem emitGroups_zero (n : Nat) : emitGroups n 0 = [] := by cases n <;> rfl

/-- One round of the loop (R140). -/
theorem emitGroups_succ {v : Nat} (hv : v ≠ 0) (n : Nat) :
    emitGroups (n + 1) v = .ofNat 8 (128 + v % 128) :: emitGroups n (v / 128) := by
  rw [emitGroups, if_neg hv, flag_or_group_eq_add, Nat.shiftRight_eq_div_pow]

/-- As many rounds as the value has bits are enough: any two bounds on its size give the same bytes. -/
theorem emitGroups_eq_of_lt {n m v : Nat} (hn : v < 2 ^ n) (hm : v < 2 ^ m) : emitGroups n v = emitGroups m v := by
  induction n generalizing m v with
  | zero =>
    obtain rfl : v = 0 := by omega
    rw [emitGroups_zero, emitGroups_zero]
  | succ n ih =>
    rcases Nat.eq_zero_or_pos v with rfl | hv
    · rw [emitGroups_zero, emitGroups_zero]
    · cases m with
      | zero => omega
      | succ m =>
        rw [emitGroups_succ hv.ne', emitGroups_succ hv.ne', ih (m := m) (by omega) (by omega)]

/-! ## The chain of a value -/

/-- A value of one group is its own chain (R140). -/
theorem encodeExtended_of_lt {v : Nat} (h : v < 128) : encodeExtended v = [.ofNat 8 v] := by
  rcases Nat.eq_zero_or_pos v with rfl | hv
  · rfl
  · have hrest : v / 128 = 0 := by omega
    have hclear : BitVec.ofNat 8 (128 + v % 128) &&& 0x7F = BitVec.ofNat 8 v := by
      refine BitVec.eq_of_toNat_eq ((and_7F_eq_mod ((128 + v % 128) % 256)).trans ?_)
      rw [BitVec.toNat_ofNat]
      omega
    rw [encodeExtended, if_neg hv.ne', emitGroups_succ hv.ne', hrest, emitGroups_zero, clearLastFlag, hclear]

/-- A longer value gives its lowest group with the continuation flag, and then the chain of the other groups (R140). -/
theorem encodeExtended_of_ge {v : Nat} (h : 128 ≤ v) :
    encodeExtended v = .ofNat 8 (128 + v % 128) :: encodeExtended (v / 128) := by
  have hv : v ≠ 0 := by omega
  have hrest : v / 128 ≠ 0 := by omega
  have hlog : v < 2 ^ (v.log2 + 1) := Nat.lt_log2_self
  have hlog' : v / 128 < 2 ^ ((v / 128).log2 + 1) := Nat.lt_log2_self
  have hfuel : emitGroups v.log2 (v / 128) = emitGroups ((v / 128).log2 + 1) (v / 128) :=
    emitGroups_eq_of_lt (by omega) hlog'
  rw [encodeExtended, if_neg hv, emitGroups_succ hv, hfuel, encodeExtended, if_neg hrest, emitGroups_succ hrest]
  rfl

/-- Induction along the chain of a value: values of one group, and values from the groups above their lowest. -/
theorem chain_induction {P : Nat → Prop} (last : ∀ v, v < 128 → P v) (more : ∀ v, 128 ≤ v → P (v / 128) → P v)
    (v : Nat) : P v := by
  induction v using Nat.strongRecOn with
  | ind v ih =>
    rcases Nat.lt_or_ge v 128 with h | h
    · exact last v h
    · exact more v h (ih _ (by omega))

/-- A chain has at least one byte (R140). -/
theorem length_encodeExtended_pos (v : Nat) : 0 < (encodeExtended v).length := by
  rcases Nat.lt_or_ge v 128 with h | h
  · simp [encodeExtended_of_lt h]
  · simp [encodeExtended_of_ge h]

/-- The bits of a value above its lowest group. -/
theorem size_eq_size_div_add {v : Nat} (h : 128 ≤ v) : v.size = (v / 128).size + 7 := by
  have hsize (n : Nat) : v.size ≤ n + 7 ↔ (v / 128).size ≤ n := by
    rw [Nat.size_le, Nat.size_le, pow_add, Nat.div_lt_iff_lt_mul (by decide), show 2 ^ 7 = 128 from rfl]
  have hlow : 7 < v.size := Nat.lt_size.mpr h
  have hup := (hsize (v / 128).size).mpr le_rfl
  have hdown := (hsize (v.size - 7)).mp (by omega)
  omega

/-- The length of a chain, for the value 0 too (R140). -/
theorem length_encodeExtended (v : Nat) : (encodeExtended v).length = max 1 ((v.size + 6) / 7) := by
  induction v using chain_induction with
  | last v h =>
    have hsize : v.size ≤ 7 := Nat.size_le.mpr h
    rw [encodeExtended_of_lt h, List.length_singleton]
    omega
  | more v h ih =>
    have hpos : 0 < (v / 128).size := Nat.size_pos.mpr (by omega)
    rw [encodeExtended_of_ge h, List.length_cons, ih, size_eq_size_div_add h]
    omega

/-- Byte `j` of a chain: group `j`, with the continuation flag on every byte but the last (R140). -/
theorem getElem?_encodeExtended {v j : Nat} (hj : j < (encodeExtended v).length) :
    (encodeExtended v)[j]? =
      some (.ofNat 8 (v / 2 ^ (7 * j) % 128 + if j + 1 < (encodeExtended v).length then 128 else 0)) := by
  induction v using chain_induction generalizing j with
  | last v h =>
    rw [encodeExtended_of_lt h, List.length_singleton] at hj ⊢
    obtain rfl : j = 0 := by omega
    simp [Nat.mod_eq_of_lt h]
  | more v h ih =>
    have hpos := length_encodeExtended_pos (v / 128)
    rw [encodeExtended_of_ge h, List.length_cons] at hj ⊢
    cases j with
    | zero => simp [hpos, Nat.add_comm]
    | succ j =>
      rw [List.getElem?_cons_succ, ih (Nat.lt_of_succ_lt_succ hj), Nat.mul_succ, Nat.add_comm (7 * j), pow_add,
        ← Nat.div_div_eq_div_mul]
      simp

/-! ## The chain that the decoder reads -/

/-- The decoder's test of the continuation flag (R141). -/
theorem flag_clear_iff (b : Byte) : b.toNat &&& 0x80 = 0 ↔ b.toNat < 128 := by
  have hflag : b.toNat &&& 0x80 = (b.toNat.testBit 7).toNat * 128 := Nat.and_two_pow b.toNat 7
  rcases Nat.lt_or_ge b.toNat 128 with h | h
  · have hbit : b.toNat.testBit 7 = false := Nat.testBit_lt_two_pow h
    simp [hflag, hbit, h]
  · have hbit : b.toNat.testBit 7 = true := Nat.testBit_of_two_pow_le_and_two_pow_add_one_gt h b.isLt
    simp [hflag, hbit, h]

/-- A byte whose continuation flag is clear ends the loop (R141). -/
theorem decodeGroups_cons_of_lt {b : Byte} (h : b.toNat < 128) (s : List Byte) (o position v : Nat) :
    decodeGroups (b :: s) o position v =
      { value := v + b.toNat % 128 * 2 ^ (7 * position), next := o + 1, trunc := false } := by
  rw [decodeGroups, if_pos ((flag_clear_iff b).mpr h), and_7F_eq_mod, Nat.shiftLeft_eq]

/-- A byte whose continuation flag is set adds its group, and the loop goes on (R141). -/
theorem decodeGroups_cons_of_ge {b : Byte} (h : 128 ≤ b.toNat) (s : List Byte) (o position v : Nat) :
    decodeGroups (b :: s) o position v =
      decodeGroups s (o + 1) (position + 1) (v + b.toNat % 128 * 2 ^ (7 * position)) := by
  rw [decodeGroups, if_neg (mt (flag_clear_iff b).mp h.not_gt), and_7F_eq_mod, Nat.shiftLeft_eq]

/-- The first `m` bytes of a sequence are what one decode reads, with the truncation mark it gives: the bytes up to the first
whose continuation flag is clear, or all of them (R141). -/
inductive ReadsChain : List Byte → Nat → Bool → Prop
  | exhausted : ReadsChain [] 0 true
  | last {b : Byte} (s : List Byte) : b.toNat < 128 → ReadsChain (b :: s) 1 false
  | more {b : Byte} {s : List Byte} {m : Nat} {trunc : Bool} :
      128 ≤ b.toNat → ReadsChain s m trunc → ReadsChain (b :: s) (m + 1) trunc

/-- No read passes the end. -/
theorem ReadsChain.le_length {s : List Byte} {m : Nat} {trunc : Bool} (h : ReadsChain s m trunc) : m ≤ s.length := by
  induction h with
  | exhausted => exact le_rfl
  | last s _ => exact Nat.succ_le_succ (Nat.zero_le _)
  | more _ _ ih => exact Nat.succ_le_succ ih

/-- Every byte but the last has its continuation flag set. -/
theorem ReadsChain.flag_set {s : List Byte} {m : Nat} {trunc : Bool} (h : ReadsChain s m trunc) {j : Nat}
    (hj : j + 1 < m) : 128 ≤ (s.getD j 0).toNat := by
  induction h generalizing j with
  | exhausted | last => omega
  | more hb _ ih =>
    cases j with
    | zero => exact hb
    | succ j => exact ih (by omega)

/-- A decode that ends because the bytes are exhausted has read them all, and each has its continuation flag set. -/
theorem ReadsChain.truncated {s : List Byte} {m : Nat} (h : ReadsChain s m true) :
    m = s.length ∧ ∀ j, j < m → 128 ≤ (s.getD j 0).toNat := by
  generalize htrunc : true = trunc at h
  induction h with
  | exhausted => exact ⟨rfl, nofun⟩
  | last => cases htrunc
  | more hb _ ih =>
    obtain ⟨hlen, hflags⟩ := ih htrunc
    refine ⟨congrArg (· + 1) hlen, fun j hj => ?_⟩
    cases j with
    | zero => exact hb
    | succ j => exact hflags j (by omega)

/-- A decode that is not truncated has read a byte, and the last one read has its continuation flag clear. -/
theorem ReadsChain.complete {s : List Byte} {m : Nat} (h : ReadsChain s m false) :
    0 < m ∧ (s.getD (m - 1) 0).toNat < 128 := by
  generalize htrunc : false = trunc at h
  induction h with
  | exhausted => cases htrunc
  | last s hb => exact ⟨Nat.one_pos, hb⟩
  | more _ _ ih =>
    obtain ⟨hpos, hlast⟩ := ih htrunc
    obtain ⟨k, rfl⟩ := Nat.exists_eq_succ_of_ne_zero hpos.ne'
    exact ⟨Nat.succ_pos _, hlast⟩

/-- The loop reads one chain and adds its groups, from the weight it has reached (R141). -/
theorem decodeGroups_readsChain (s : List Byte) (o position v : Nat) : ∃ m,
    ReadsChain s m (decodeGroups s o position v).trunc ∧ (decodeGroups s o position v).next = o + m ∧
      (decodeGroups s o position v).value =
        v + ∑ j ∈ Finset.range m, (s.getD j 0).toNat % 128 * 2 ^ (7 * (position + j)) := by
  induction s generalizing o position v with
  | nil => exact ⟨0, .exhausted, rfl, rfl⟩
  | cons b s ih =>
    rcases Nat.lt_or_ge b.toNat 128 with hb | hb
    · rw [decodeGroups_cons_of_lt hb]
      exact ⟨1, .last s hb, rfl, by simp⟩
    · rw [decodeGroups_cons_of_ge hb]
      obtain ⟨m, hchain, hnext, hvalue⟩ := ih (o + 1) (position + 1) (v + b.toNat % 128 * 2 ^ (7 * position))
      refine ⟨m + 1, .more hb hchain, by omega, ?_⟩
      rw [hvalue, Finset.sum_range_succ']
      simp only [List.getD_cons_succ, List.getD_cons_zero, Nat.add_right_comm position 1, ← Nat.add_assoc, Nat.add_zero]
      exact Nat.add_right_comm ..

/-! ## The round trip -/

/-- The loop reads a chain back whole, whatever follows it (R142). -/
theorem decodeGroups_encodeExtended (v : Nat) (q : List Byte) (o position acc : Nat) :
    decodeGroups (encodeExtended v ++ q) o position acc =
      { value := acc + v * 2 ^ (7 * position), next := o + (encodeExtended v).length, trunc := false } := by
  induction v using chain_induction generalizing o position acc with
  | last v h =>
    have hbyte : (BitVec.ofNat 8 v).toNat = v := Nat.mod_eq_of_lt (by omega)
    rw [encodeExtended_of_lt h, List.singleton_append, decodeGroups_cons_of_lt (by omega), hbyte, Nat.mod_eq_of_lt h,
      List.length_singleton]
  | more v h ih =>
    have hbyte : (BitVec.ofNat 8 (128 + v % 128)).toNat = 128 + v % 128 := Nat.mod_eq_of_lt (by omega)
    have hgroup : (128 + v % 128) % 128 = v % 128 := by omega
    have hsplit : v % 128 * 2 ^ (7 * position) + v / 128 * 2 ^ (7 * (position + 1)) = v * 2 ^ (7 * position) := by
      conv_rhs => rw [← Nat.mod_add_div v 128]
      ring
    rw [encodeExtended_of_ge h, List.cons_append, decodeGroups_cons_of_ge (by omega), hbyte, hgroup, ih, Nat.add_assoc acc,
      hsplit, List.length_cons, Nat.add_right_comm o 1, Nat.add_assoc o]

/-- The decoder reads a chain back from between any bytes (R142). -/
theorem decodeExtended_append (v : Nat) (p q : List Byte) :
    decodeExtended (p ++ encodeExtended v ++ q) p.length =
      { value := v, next := p.length + (encodeExtended v).length, trunc := false } := by
  rw [decodeExtended, List.append_assoc, List.drop_left, decodeGroups_encodeExtended]
  simp

/-- A chain that stands in a buffer decodes from its index there (R142, R146). -/
theorem Buffer.decodeExtended_contents {b : Buffer} {v o : Nat} (hfit : o + (encodeExtended v).length ≤ b.len)
    (hchain : b.bytes.readBytes o (encodeExtended v).length = encodeExtended v) :
    decodeExtended b.contents o = { value := v, next := o + (encodeExtended v).length, trunc := false } := by
  obtain ⟨rest, hrest⟩ := Nat.exists_eq_add_of_le hfit
  have hsplit : b.contents = b.bytes.readBytes 0 o ++ encodeExtended v
      ++ b.bytes.readBytes (o + (encodeExtended v).length) rest := by
    rw [Buffer.contents, hrest, Memory.readBytes_add, Memory.readBytes_add, Nat.zero_add, Nat.zero_add, hchain]
  have hdecode := decodeExtended_append v (b.bytes.readBytes 0 o) (b.bytes.readBytes (o + (encodeExtended v).length) rest)
  rwa [← hsplit, Memory.length_readBytes] at hdecode

/-! ## How the commands of the family end -/

/-- Where there is room at the cursor, a command that puts bytes stores them there in order, moves the cursor past them and
leaves all else alone (R41, R43). -/
theorem finish_putBytes {s : State} {k : BufSel} {bytes : List Byte}
    (hroom : (s.buf k).off + bytes.length ≤ (s.buf k).len) (hwf : (s.buf k).bytes.wf) :
    ∃ t, finish s (putBytes k bytes s) = .next t ∧ (t.buf k).bytes.readBytes (s.buf k).off bytes.length = bytes ∧
      (∀ a, a < (s.buf k).off ∨ (s.buf k).off + bytes.length ≤ a → (t.buf k).bytes.read a = (s.buf k).bytes.read a) ∧
      (t.buf k).len = (s.buf k).len ∧ (t.buf k).off = (s.buf k).off + bytes.length ∧
      (∀ j, j ≠ k → SameBuf j s t) ∧ SameRegs s t ∧ SameRest s t ∧ Answers 0 s t := by
  refine ⟨(s.setBuf k ((s.buf k).put bytes)).answered 0, ?_, ?_, fun a ha => ?_, ?_, ?_, s.setBuf_frame k _⟩
  · rw [putBytes_fits hroom, finish_ok]
  · rw [State.buf_setBuf_answered, Buffer.put_bytes, Memory.readBytes_writeBytes hwf]
  · rw [State.buf_setBuf_answered, Buffer.put_bytes, Memory.read_writeBytes hwf, if_neg (by omega)]
  · rw [State.buf_setBuf_answered, Buffer.put_len]
  · rw [State.buf_setBuf_answered, Buffer.put_off]

end Sys2Proof.Machine
end

section
/-! PROOF. The statements of the family `42_extended.md`: the chain of a value, what the decoder reads, that the two are
inverse to each other, and what the commands of the extended-value unit write. -/

namespace Sys2Proof.Machine

/-- Settles O35, by induction along the chain, in `length_encodeExtended` and `getElem?_encodeExtended`. -/
theorem extendedChainHasTheShortestForm : Obligations.ExtendedChainHasTheShortestForm := by
  refine fun v => ⟨fun hv => hv ▸ rfl, fun hv => ⟨?_, fun j hj => ⟨_, getElem?_encodeExtended hj, ?_⟩⟩⟩
  · have hpos : 0 < v.size := Nat.size_pos.mpr (Nat.pos_of_ne_zero hv)
    rw [length_encodeExtended]
    omega
  · rw [BitVec.toNat_ofNat, Nat.mod_eq_of_lt]
    split <;> omega

/-- Settles O36: the clauses are those of the chain that the loop reads, its bytes counted from the start index. -/
theorem extendedDecodeReadsOneChain : Obligations.ExtendedDecodeReadsOneChain := by
  intro s o ho
  obtain ⟨m, hchain, hnext, hvalue⟩ := decodeGroups_readsChain (s.drop o) o 0 0
  have hbyte (j : Nat) : (s.drop o).getD j 0 = s.getD (o + j) 0 := by
    rw [List.getD_eq_getElem?_getD, List.getElem?_drop, List.getD_eq_getElem?_getD]
  have hlen := hchain.le_length
  rw [List.length_drop] at hlen
  simp only [hbyte, Nat.zero_add] at hvalue
  refine ⟨m, by omega, hnext, hvalue, fun j hj => ?_, fun htrunc => ?_, fun htrunc => ?_⟩
  · exact hbyte j ▸ hchain.flag_set hj
  · obtain ⟨hall, hflags⟩ := ReadsChain.truncated (htrunc ▸ hchain)
    rw [List.length_drop] at hall
    exact ⟨by omega, fun j hj => hbyte j ▸ hflags j hj⟩
  · obtain ⟨hpos, hlast⟩ := ReadsChain.complete (htrunc ▸ hchain)
    rw [hbyte, ← Nat.add_sub_assoc hpos] at hlast
    exact ⟨hpos, hlast⟩

/-- Settles O37, by induction along the chain, in `decodeGroups_encodeExtended`. -/
theorem extendedValueRoundTrip : Obligations.ExtendedValueRoundTrip := decodeExtended_append

/-- Settles O38, by whether there is room for the whole chain at the cursor. -/
theorem extencStoresTheChain : Obligations.ExtencStoresTheChain := by
  intro rs s
  refine ⟨toNat_assemble_ra (by decide) rs, fun hroom hwf => ?_, fun hfull => finish_faultedAs (putBytes_full hfull)⟩
  obtain ⟨t, hexec, hchain, hkept, hlen, hoff, hother, hframe⟩ := finish_putBytes (s := s) (k := .D) hroom hwf
  exact ⟨t, hexec, hchain, hkept, hlen, hoff, hother .S nofun, hframe⟩

/-- Settles O39, by whether the decoded value is below 2^XLEN. -/
theorem extdecLoadsTheValue : Obligations.ExtdecLoadsTheValue := by
  intro rd s
  refine ⟨toNat_assemble_ra (by decide) rd, fun hlegal hvalue => ?_, fun hover => finish_faultedAs (if_pos hover)⟩
  obtain ⟨⟨-, hxlen⟩, -⟩ := hlegal
  obtain ⟨hregs, ⟨hsums, -, hfcs, hrecord, hmt, hport⟩, ⟨-, hD⟩, hanswer⟩ :=
    s.setReg_frame rd (decodeExtended s.bufS.contents s.bufS.off).value
  refine ⟨_, congrArg (finish s) (if_neg hvalue.not_ge), s.toNat_reg_setReg rd hxlen hvalue, hregs, rfl, rfl,
    fun _ => rfl, hD, rfl, hsums, hfcs, hrecord, hmt, hport, hanswer⟩

/-- Settles O40: each command ends as its own statement says, and the bytes that `EXTENC` stored are the ones that `EXTDEC`
decodes. -/
theorem extencThenExtdecGivesTheValueBack : Obligations.ExtencThenExtdecGivesTheValueBack := by
  intro rs rd o s hs hoff hroom
  obtain ⟨-, -, hwf, -⟩ := hs.bufD
  obtain ⟨-, hextenc, -⟩ := extencStoresTheChain rs s
  obtain ⟨-, hbswap⟩ := bswapExchangesTheBuffers
  obtain ⟨t, ht, hchain, -, hlenT, -, -, hregsT, ⟨-, -, -, -, -, hconfigT, -⟩, -⟩ := hextenc (hoff ▸ hroom) hwf
  obtain ⟨u, -, hu, ⟨hswap, -⟩, hregsU, ⟨-, -, -, -, -, hconfigU, -⟩, -⟩ := hbswap t
  have hlenU : (u.buf .S).len = s.bufD.len := (congrArg Buffer.len hswap).trans hlenT
  obtain ⟨-, hbseek, -⟩ := bseekMovesTheCursor .S o u
  obtain ⟨v, hv, hoffV, hlenV, hbytesV, -, hregsV, ⟨-, -, -, -, -, hconfigV, -⟩, -⟩ := hbseek (by omega)
  simp only [State.buf_S] at hoffV hlenV hbytesV hlenU
  have hstored : v.bufS.bytes.readBytes o.toNat (encodeExtended (s.reg rs).toNat).length = encodeExtended (s.reg rs).toNat := by
    rw [Memory.readBytes_congr fun a _ _ => hbytesV a, hswap, ← hoff, hchain]
  have hdecode := Buffer.decodeExtended_contents (b := v.bufS) (by omega) hstored
  have hconfig : v.config = s.config := hconfigV.trans (hconfigU.trans hconfigT)
  obtain ⟨-, hextdec, -⟩ := extdecLoadsTheValue rd v
  rw [hoffV, hdecode, hconfig] at hextdec
  obtain ⟨w, hw, hvalue, hregsW, hnext, -, -, -, hstatus, -⟩ := hextdec hs.config (hs.regs.reg rs)
  exact ⟨t, u, v, w, ht, hu, hv, hw, BitVec.eq_of_toNat_eq hvalue, congrArg Status.trunc hstatus, hnext, fun r hr =>
    (hregsW r hr).trans ((hregsV r).trans ((hregsU r).trans (hregsT r)))⟩

end Sys2Proof.Machine
end

section
/-! SUPPORT. The functions of the checksum units (R150 to R153, R160): the CRC step as a linear map of its register, its two
forms, and the LRC as a fold; and how a command ends that writes one accumulator. -/

namespace Sys2Proof.Machine

/-! ## The CRC step -/

/-- Exclusive or with the same word twice cancels. -/
theorem xor_xor_self_left {w : Nat} (x y : BitVec w) : x ^^^ (x ^^^ y) = y := by
  rw [← BitVec.xor_assoc, BitVec.xor_self, BitVec.zero_xor]

/-- A round of the CRC step is linear over exclusive or (R150). -/
theorem crcShift_xor (x y : BitVec 16) : crcShift (x ^^^ y) = crcShift x ^^^ crcShift y := by
  simp only [crcShift, BitVec.getLsbD_xor, BitVec.ushiftRight_xor_distrib]
  cases x.getLsbD 0 <;> cases y.getLsbD 0
  · rfl
  · exact BitVec.xor_assoc ..
  · change x >>> 1 ^^^ y >>> 1 ^^^ crcPoly = x >>> 1 ^^^ crcPoly ^^^ y >>> 1
    ac_rfl
  · change x >>> 1 ^^^ y >>> 1 = x >>> 1 ^^^ crcPoly ^^^ (y >>> 1 ^^^ crcPoly)
    rw [BitVec.xor_assoc, BitVec.xor_comm (y >>> 1), xor_xor_self_left]

/-- So is any number of rounds. -/
theorem iterate_crcShift_xor (n : Nat) (x y : BitVec 16) :
    crcShift^[n] (x ^^^ y) = crcShift^[n] x ^^^ crcShift^[n] y := by
  induction n generalizing x y with
  | zero => rfl
  | succ n ih =>
    rw [Function.iterate_succ_apply, crcShift_xor, ih]
    rfl

/-- A register whose low `n` bits are clear is only shifted by `n` rounds. -/
theorem iterate_crcShift_of_low_clear {n : Nat} {x : BitVec 16} (h : ∀ i < n, x.getLsbD i = false) :
    crcShift^[n] x = x >>> n := by
  induction n with
  | zero => exact (BitVec.ushiftRight_zero x).symm
  | succ n ih =>
    have hbit : (x >>> n).getLsbD 0 = false := by
      rw [BitVec.getLsbD_ushiftRight]
      exact h n n.lt_succ_self
    have hshifted : crcShift^[n] x = x >>> n := ih fun i hi => h i (hi.trans n.lt_succ_self)
    rw [Function.iterate_succ_apply', hshifted, crcShift, hbit, if_neg Bool.false_ne_true, BitVec.shiftRight_add]

/-- A byte folded into a register changes its low byte only. -/
theorem xor_setWidth_eq_high_xor_low (c : BitVec 16) (b : Byte) :
    c ^^^ b.setWidth 16 = (c >>> 8 <<< 8) ^^^ (c.setWidth 8 ^^^ b).setWidth 16 := by
  ext i hi
  rcases Nat.lt_or_ge i 8 with h | h
  · simp [h, BitVec.getLsbD_eq_getElem hi]
  · simp [h, hi, Nat.not_lt.mpr h]

/-- The bit-serial step from zero over the 64 bytes from `start` on. -/
def crcRows (start : Nat) : List (BitVec 16) :=
  (List.range' start 64).map fun i => crcStep 0 (.ofNat 8 i)

/-- The printed table is the bit-serial step from zero over all bytes in order (R153). -/
theorem crcTable_eq_map : crcTable = (List.range' 0 256).map fun i => crcStep 0 (.ofNat 8 i) := by
  have rows0 : crcTable0 = crcRows 0 := by decide
  have rows1 : crcTable1 = crcRows 64 := by decide
  have rows2 : crcTable2 = crcRows 128 := by decide
  have rows3 : crcTable3 = crcRows 192 := by decide
  have bytes : List.range' 0 64 ++ List.range' 64 64 ++ List.range' 128 64 ++ List.range' 192 64 = List.range' 0 256 := by
    rw [List.range'_append_1 (s := 0), List.range'_append_1 (s := 0), List.range'_append_1 (s := 0)]
  rw [← bytes, crcTable, rows0, rows1, rows2, rows3]
  simp only [crcRows, List.map_append]

/-- The printed table has an entry for every byte (R153). -/
theorem length_crcTable : crcTable.length = 256 := by
  rw [crcTable_eq_map, List.length_map, List.length_range']

/-- An entry of the table is the bit-serial step from zero (R153). -/
theorem crcTableEntry_eq_crcStep (i : Byte) : crcTableEntry i = crcStep 0 i := by
  have hi : i.toNat < 256 := i.isLt
  rw [crcTableEntry, crcTable_eq_map, List.getD_eq_getElem?_getD, List.getElem?_map, List.getElem?_range' hi, Option.map_some,
    Option.getD_some, Nat.zero_add, Nat.one_mul, BitVec.ofNat_toNat, BitVec.setWidth_eq]

/-- The bit-serial step is the table-driven one (R153): the high byte is shifted out unchanged, and the low byte, with the
folded byte, runs through the eight rounds from zero. -/
theorem crcStep_eq_crcStepByTable (c : BitVec 16) (b : Byte) : crcStep c b = crcStepByTable c b := by
  have hlow : ∀ i < 8, (c >>> 8 <<< 8).getLsbD i = false := fun i hi => by simp [hi]
  have hhigh : c >>> 8 <<< 8 >>> 8 = c >>> 8 := by
    ext i hi
    simpa [hi] using BitVec.lt_of_getLsbD
  rw [crcStepByTable, crcTableEntry_eq_crcStep, crcStep, xor_setWidth_eq_high_xor_low, iterate_crcShift_xor,
    iterate_crcShift_of_low_clear hlow, hhigh, crcStep, BitVec.ofNat_eq_ofNat, BitVec.zero_xor]

/-- Two steps over the complement of a register leave the residue, whatever the register (R154): in each step it cancels
in the index of the table entry, and after both its two bytes are shifted out. -/
theorem crcFold_fcsBytes_complement (c : BitVec 16) : crcFold c (fcsBytes (c ^^^ crcXorOut)) = 0xF0B8 := by
  have hfirst : crcStep c ((c ^^^ crcXorOut).extractLsb' 0 8) = (c >>> 8) ^^^ 0x0F78 := by
    have hindex : c.setWidth 8 ^^^ (c ^^^ crcXorOut).extractLsb' 0 8 = 0xFF := by
      rw [BitVec.setWidth_eq_extractLsb' (by decide), BitVec.extractLsb'_xor, xor_xor_self_left]
      rfl
    rw [crcStep_eq_crcStepByTable, crcStepByTable, hindex]
    rfl
  have hindex : ((c >>> 8) ^^^ 0x0F78).setWidth 8 ^^^ (c ^^^ crcXorOut).extractLsb' 8 8 = 0x87 := by
    rw [BitVec.setWidth_xor, BitVec.setWidth_ushiftRight_eq_extractLsb, BitVec.extractLsb'_xor,
      BitVec.xor_comm (c.extractLsb' 8 8), BitVec.xor_assoc, xor_xor_self_left]
    rfl
  have hshift : ((c >>> 8) ^^^ 0x0F78) >>> 8 = 0x000F := by
    rw [BitVec.ushiftRight_xor_distrib, ← BitVec.shiftRight_add, BitVec.ushiftRight_eq_zero (by decide)]
    rfl
  rw [fcsBytes, crcFold_cons, crcFold_cons, crcFold_nil, hfirst, crcStep_eq_crcStepByTable, crcStepByTable, hindex, hshift]
  rfl

/-! ## LRC-8 -/

@[simp] theorem lrc8_nil (i : Byte) : lrc8 [] i = i := rfl

@[simp] theorem lrc8_cons (b : Byte) (s : List Byte) (i : Byte) : lrc8 (b :: s) i = lrc8 s (i ^^^ b) := rfl

/-- The LRC folds its bytes by exclusive or (R160). -/
theorem lrc8_eq_foldl (s : List Byte) (i : Byte) : lrc8 s i = s.foldl (· ^^^ ·) i := by
  induction s generalizing i with
  | nil => rfl
  | cons b s ih => exact ih _

/-- The LRC can be computed in pieces. -/
theorem lrc8_append (s t : List Byte) (i : Byte) : lrc8 (s ++ t) i = lrc8 t (lrc8 s i) := by
  simp only [lrc8_eq_foldl, List.foldl_append]

/-- The seed enters the LRC as one more byte. -/
theorem lrc8_xor (s : List Byte) (i d : Byte) : lrc8 s (i ^^^ d) = lrc8 s i ^^^ d := by
  induction s generalizing i with
  | nil => rfl
  | cons b s ih => rw [lrc8_cons, lrc8_cons, ← ih, BitVec.xor_assoc, BitVec.xor_comm d, BitVec.xor_assoc]

/-- The LRC does not depend on the order of the bytes. -/
theorem lrc8_perm {s t : List Byte} (h : s.Perm t) (i : Byte) : lrc8 s i = lrc8 t i := by
  simp only [lrc8_eq_foldl]
  exact h.foldl_eq i

/-! ## How a command of the family ends -/

/-- A command that completes with a write to `crc` leaves all else alone (R13). -/
theorem finish_withCrc (s : State) (c : BitVec 16) :
    ∃ t, finish s (.ok { s with crc := c }) = .next t ∧ t.crc = c ∧ t.lrc = s.lrc ∧ CompletesButSums s t :=
  ⟨_, rfl, rfl, rfl, s.withSums_frame c s.lrc⟩

/-- A command that completes with a write to `lrc` leaves all else alone (R14). -/
theorem finish_withLrc (s : State) (l : Byte) :
    ∃ t, finish s (.ok { s with lrc := l }) = .next t ∧ t.lrc = l ∧ t.crc = s.crc ∧ CompletesButSums s t :=
  ⟨_, rfl, rfl, rfl, s.withSums_frame s.crc l⟩

/-- A command that completes with a value of at most 32 bits in `rd` leaves it there whole in every legal build (R3), and all
else alone. -/
theorem finish_setReg_toNat {s : State} {w : Nat} (rd : Reg) (v : BitVec w) (hw : w ≤ 32) (hlegal : s.config.Legal) :
    ∃ t, finish s (.ok (s.setReg rd v.toNat)) = .next t ∧
      (t.reg rd).toNat = v.toNat ∧ SameRegsBut rd s t ∧ SameRest s t ∧ SameBufs s t ∧ Answers 0 s t := by
  obtain ⟨⟨hxlen, hxlen'⟩, -⟩ := hlegal
  exact finish_setReg rfl hxlen' (v.isLt.trans_le (Nat.pow_le_pow_right (by decide) (hw.trans hxlen)))

/-- The final XOR complements the register (R150). -/
theorem toNat_xor_crcXorOut (c : BitVec 16) : (c ^^^ crcXorOut).toNat = 0xFFFF - c.toNat := by
  rw [show crcXorOut = BitVec.allOnes 16 from rfl, BitVec.xor_allOnes, BitVec.toNat_not]

end Sys2Proof.Machine
end

section
/-! PROOF. The statements of the family `43_checksum.md`: the two forms of the CRC step, the residue, the laws of the LRC,
and what the commands of the checksum units write. -/

namespace Sys2Proof.Machine

/-- Settles O44: the step is linear, so it splits into the shifted high byte and the step from zero over the low byte, whose
256 values are the printed table. -/
theorem crcStepAgreesWithTheTable : Obligations.CrcStepAgreesWithTheTable :=
  ⟨length_crcTable, crcTableEntry_eq_crcStep, crcStep_eq_crcStepByTable⟩

/-- Settles O45: the FCS bytes are the complement of the register that the content leaves. -/
theorem crcResidueIsConstant : Obligations.CrcResidueIsConstant := by
  intro s
  rw [crcFold_append]
  exact crcFold_fcsBytes_complement (crcFold crcInit s)

/-- Settles O46, by the LRC of two pieces and by the seed entering it as one more byte. -/
theorem lrcFoldsByExclusiveOr : Obligations.LrcFoldsByExclusiveOr := by
  refine fun s t i => ⟨lrc8_nil i, lrc8_append s t i, ?_, fun h => lrc8_perm h i, fun b d _ => ?_⟩
  · rw [lrc8_append, lrc8_cons, lrc8_nil, BitVec.xor_self]
    rfl
  · rw [lrc8_append, lrc8_append, lrc8_cons, lrc8_cons, ← BitVec.xor_assoc, lrc8_xor]

/-- Settles O41: each of the three writes one value to `crc`. -/
theorem crcCommandsWriteTheAccumulator : Obligations.CrcCommandsWriteTheAccumulator := by
  refine ⟨⟨rfl, rfl, toNat_assemble_ra_imm8 (by decide) .x0⟩, fun s b => ?_⟩
  simp only [List.forall_mem_cons]
  exact ⟨finish_withCrc s crcInit, finish_withCrc s _, finish_withCrc s _, List.forall_mem_nil _⟩

/-- Settles O42: each of the four writes one value to `lrc`. -/
theorem lrcCommandsWriteTheAccumulator : Obligations.LrcCommandsWriteTheAccumulator := by
  refine ⟨⟨rfl, rfl, fun b => ⟨toNat_assemble_ra_imm8 (by decide) .x0 b, toNat_assemble_ra_imm8 (by decide) .x0 b⟩⟩,
    fun s b => ?_⟩
  simp only [List.forall_mem_cons, ← lrc8_eq_foldl]
  exact ⟨finish_withLrc s lrcSeed, finish_withLrc s b, finish_withLrc s _, finish_withLrc s _,
    List.forall_mem_nil _⟩

/-- Settles O43: both values are narrower than every legal XLEN. -/
theorem checksumReadsLeaveTheAccumulators : Obligations.ChecksumReadsLeaveTheAccumulators := by
  refine fun rd s => ⟨toNat_assemble_ra (by decide) rd, toNat_assemble_ra (by decide) rd, fun hlegal => ?_⟩
  obtain ⟨t, ht, hvalueT, hframeT⟩ := finish_setReg_toNat rd (s.crc ^^^ crcXorOut) (by decide) hlegal
  obtain ⟨u, hu, hvalueU, hframeU⟩ := finish_setReg_toNat rd s.lrc (by decide) hlegal
  exact ⟨t, u, ht, hu, hvalueT.trans (toNat_xor_crcXorOut s.crc), hvalueU, hframeT, hframeU⟩

end Sys2Proof.Machine
end

section
/-! SUPPORT. The functions of the byte-stuffing framer (R170 to R174) by recursion on the bytes: what stuffing leaves of the
reserved bytes, unstuffing in pieces, the frame decoder by what stands between its markers, and the frame check seen as the
residue of the CRC; and how a command ends that replaces `D`. -/

namespace Sys2Proof.Machine

/-! ## Stuffing -/

theorem stuff_append (s t : List Byte) : stuff (s ++ t) = stuff s ++ stuff t := List.flatMap_append

/-- The wire form of a byte is one or two bytes (R171). -/
theorem length_stuffByte (b : Byte) : 1 ≤ (stuffByte b).length ∧ (stuffByte b).length ≤ 2 := by
  rcases stuffByte_cases b with ⟨t, h, -⟩ | ⟨h, -⟩
  · simp [h]
  · simp [h]

theorem length_le_length_stuff (s : List Byte) : s.length ≤ (stuff s).length := by
  induction s with
  | nil => exact le_refl 0
  | cons b s ih =>
    obtain ⟨hpos, -⟩ := length_stuffByte b
    rw [stuff_cons, List.length_append, List.length_cons]
    omega

theorem length_stuff_le (s : List Byte) : (stuff s).length ≤ 2 * s.length := by
  induction s with
  | nil => exact le_refl 0
  | cons b s ih =>
    obtain ⟨-, htwo⟩ := length_stuffByte b
    rw [stuff_cons, List.length_append, List.length_cons]
    omega

/-- Of the reserved bytes only the escape stands in a stuffed sequence (R171). -/
theorem not_mem_stuff {r : Byte} (hr : r ∈ [0x7E, 0x7D, 0x11, 0x13]) (hesc : r ≠ escapeByte) (s : List Byte) :
    r ∉ stuff s := by
  simp only [stuff, List.mem_flatMap, not_exists, not_and]
  intro b _
  rcases stuffByte_cases b with ⟨t, h, -, ht⟩ | ⟨h, hb⟩
  · rw [h, List.mem_pair, not_or]
    exact ⟨hesc, fun hrt => ht (hrt ▸ hr)⟩
  · rw [h, List.mem_singleton]
    exact fun hrb => hb (hrb ▸ hr)

/-- The bytes that restore to no byte are those other than the four substitutes (R170). -/
theorem restore_eq_none_iff {b : Byte} : restore b = none ↔ b ∉ [0x5E, 0x5D, 0x31, 0x33] := by
  unfold restore
  split_ifs <;> simp_all

/-- In a stuffed sequence an escape stands before a substitute (R171). -/
theorem substitute_after_escape (s : List Byte) (i : Nat) (h : (stuff s)[i]? = some escapeByte) :
    ∃ c : Byte, c ∈ [0x5E, 0x5D, 0x31, 0x33] ∧ (stuff s)[i + 1]? = some c := by
  induction s generalizing i with
  | nil => cases h
  | cons b s ih =>
    rw [stuff_cons] at h ⊢
    rcases stuffByte_cases b with ⟨t, hb, hrestore, ht⟩ | ⟨hb, hraw⟩
    · rw [hb] at h ⊢
      match i with
      | 0 =>
        refine ⟨t, ?_, rfl⟩
        by_contra hnot
        cases (restore_eq_none_iff.mpr hnot).symm.trans hrestore
      | 1 => exact absurd (Option.some.inj h ▸ by decide) ht
      | i + 2 => exact ih i h
    · rw [hb] at h ⊢
      match i with
      | 0 => exact absurd (Option.some.inj h ▸ by decide) hraw
      | i + 1 => exact ih i h

/-! ## Unstuffing -/

@[simp] theorem unstuff_nil : unstuff [] = some [] := rfl

/-- An unescaped byte is copied (R172). -/
theorem unstuff_cons {b : Byte} (h : b ≠ escapeByte) (s : List Byte) : unstuff (b :: s) = (unstuff s).map (b :: ·) :=
  if_neg h

/-- An escaped byte is restored (R172). -/
theorem unstuff_escape {b r : Byte} (h : restore b = some r) (s : List Byte) :
    unstuff (escapeByte :: b :: s) = (unstuff s).map (r :: ·) := by
  simp only [unstuff, unstuffFrom, if_true, h]

/-- An escape before a byte that is no substitute is refused (R172). -/
theorem unstuff_bad_escape {b : Byte} (h : restore b = none) (s : List Byte) : unstuff (escapeByte :: b :: s) = none := by
  simp only [unstuff, unstuffFrom, if_true, h]

/-- Induction along a sequence that unstuffs, the escape and its byte taken together (R172). The loop in the middle of an
escape stands for the sequence with that escape in front. -/
theorem unstuff_induction {P : List Byte → List Byte → Prop} (nil : P [] [])
    (raw : ∀ b p u, b ≠ escapeByte → P p u → P (b :: p) (b :: u))
    (escaped : ∀ b r p u, restore b = some r → P p u → P (escapeByte :: b :: p) (r :: u))
    {p u : List Byte} (h : unstuff p = some u) : P p u := by
  have loop (esc : Bool) (p u : List Byte) (h : unstuffFrom esc p = some u) :
      P (if esc then escapeByte :: p else p) u := by
    fun_induction unstuffFrom esc p generalizing u with
    | case1 =>
      cases h
      exact nil
    | case2 => cases h
    | case3 b s r hr ih =>
      obtain ⟨v, hv, rfl⟩ := Option.map_eq_some_iff.mp h
      exact escaped b r s v hr (ih v hv)
    | case4 => cases h
    | case5 s ih => exact ih u h
    | case6 b s hb ih =>
      obtain ⟨v, hv, rfl⟩ := Option.map_eq_some_iff.mp h
      exact raw b s v hb (ih v hv)
  exact loop false p u h

/-- After a sequence that unstuffs the rest unstuffs on its own (R172). -/
theorem unstuff_append {p u : List Byte} (h : unstuff p = some u) (q : List Byte) :
    unstuff (p ++ q) = (unstuff q).map (u ++ ·) := by
  refine unstuff_induction (P := fun p u => unstuff (p ++ q) = (unstuff q).map (u ++ ·)) Option.map_id'.symm
    (fun b p u hb ih => ?raw) (fun b r p u hr ih => ?escaped) h
  case raw =>
    rw [List.cons_append, unstuff_cons hb, ih, Option.map_map]
    rfl
  case escaped =>
    rw [List.cons_append, List.cons_append, unstuff_escape hr, ih, Option.map_map]
    rfl

theorem length_unstuff_le {p u : List Byte} (h : unstuff p = some u) : u.length ≤ p.length :=
  unstuff_induction (P := fun p u => u.length ≤ p.length) (le_refl 0) (fun _ _ _ _ ih => Nat.succ_le_succ ih)
    (fun _ _ _ _ _ ih => (Nat.succ_le_succ ih).trans (Nat.le_succ _)) h

/-- The wire form of a byte unstuffs to it (R171, R172). -/
theorem unstuff_stuffByte_append (b : Byte) (s : List Byte) : unstuff (stuffByte b ++ s) = (unstuff s).map (b :: ·) := by
  rcases stuffByte_cases b with ⟨t, h, hrestore, -⟩ | ⟨h, hraw⟩
  · rw [h]
    exact unstuff_escape hrestore s
  · rw [h]
    exact unstuff_cons (fun hb => absurd (hb ▸ by decide) hraw) s

/-- Unstuffing reverses stuffing (R172). -/
theorem unstuff_stuff (s : List Byte) : unstuff (stuff s) = some s := by
  induction s with
  | nil => rfl
  | cons b s ih => rw [stuff_cons, unstuff_stuffByte_append, ih, Option.map_some]

/-- Bytes without an escape are copied whole (R172). -/
theorem unstuff_of_not_mem {s : List Byte} (h : escapeByte ∉ s) : unstuff s = some s := by
  induction s with
  | nil => rfl
  | cons b s ih =>
    obtain ⟨hb, hs⟩ := List.ne_and_not_mem_of_not_mem_cons h
    rw [unstuff_cons hb.symm, ih hs, Option.map_some]

/-! ## Frames -/

/-- The frame of a content stands between two markers (R173). -/
theorem toFrame_of_ne_nil {c : List Byte} (h : c ≠ []) :
    toFrame c = marker :: stuff (c ++ fcsBytes (crc16 c)) ++ [marker] :=
  if_neg fun hlen => h (List.length_eq_zero_iff.mp hlen)

/-- The frame of a content has its two markers and two FCS bytes, and at most one escape for each stuffed byte (R173). -/
theorem length_toFrame_bounds {c : List Byte} (h : c ≠ []) :
    c.length + 4 ≤ (toFrame c).length ∧ (toFrame c).length ≤ 2 * c.length + 6 := by
  have hpair : (c ++ fcsBytes (crc16 c)).length = c.length + 2 := List.length_append
  have hle := length_le_length_stuff (c ++ fcsBytes (crc16 c))
  have hge := length_stuff_le (c ++ fcsBytes (crc16 c))
  rw [toFrame_of_ne_nil h, List.length_append, List.length_cons, List.length_singleton]
  omega

theorem length_toFrame_le (c : List Byte) : (toFrame c).length ≤ 2 * c.length + 6 := by
  rcases eq_or_ne c [] with rfl | h
  · exact Nat.zero_le _
  · obtain ⟨-, hle⟩ := length_toFrame_bounds h
    exact hle

/-! ## The frame check -/

theorem toNat_fcsValue (low high : Byte) : (fcsValue low high).toNat = low.toNat + 256 * high.toNat := by
  have hlow : low.toNat < 2 ^ 8 := low.isLt
  have hhigh : high.toNat < 2 ^ 8 := high.isLt
  have hshift : high.toNat <<< 8 % 2 ^ 16 = high.toNat <<< 8 := by
    rw [Nat.shiftLeft_eq]
    omega
  rw [fcsValue, BitVec.toNat_or, BitVec.toNat_shiftLeft, BitVec.toNat_setWidth_of_le (by decide),
    BitVec.toNat_setWidth_of_le (by decide), hshift, Nat.or_comm, ← Nat.shiftLeft_add_eq_or_of_lt hlow, Nat.shiftLeft_eq]
  omega

/-- The two FCS bytes of a checksum carry it (R46, R174). -/
theorem fcsValue_extractLsb' (f : BitVec 16) : fcsValue (f.extractLsb' 0 8) (f.extractLsb' 8 8) = f := by
  refine BitVec.eq_of_toNat_eq ?_
  rw [toNat_fcsValue, BitVec.extractLsb'_toNat, BitVec.extractLsb'_toNat, Nat.shiftRight_eq_div_pow, Nat.shiftRight_eq_div_pow]
  omega

/-- Two bytes are the FCS bytes of the checksum that they carry (R46, R174). -/
theorem fcsBytes_fcsValue (low high : Byte) : fcsBytes (fcsValue low high) = [low, high] := by
  have hbyte (i : Nat) : ((fcsValue low high).extractLsb' i 8).toNat = (low.toNat + 256 * high.toNat) / 2 ^ i % 256 := by
    rw [BitVec.extractLsb'_toNat, toNat_fcsValue, Nat.shiftRight_eq_div_pow]
  have hlow : (fcsValue low high).extractLsb' 0 8 = low := BitVec.eq_of_toNat_eq (by rw [hbyte]; omega)
  have hhigh : (fcsValue low high).extractLsb' 8 8 = high := BitVec.eq_of_toNat_eq (by rw [hbyte]; omega)
  rw [fcsBytes, hlow, hhigh]

/-- What an interior with the content `c` and the expected checksum `f` is decoded to (R174). -/
def FrameResult.checked (c : List Byte) (f : BitVec 16) : FrameResult where
  content := c
  expv := true
  exp := f
  act := crc16 c
  valid := decide (f = crc16 c)
  sync := false
  esc := false

/-- An interior without room for a checksum is closed (R174). -/
theorem checkInterior_of_short {u : List Byte} (h : u.length < 2) : checkInterior u = .closed true false := if_pos h

/-- The last two bytes of an interior are its expected checksum, low byte first (R174). -/
theorem checkInterior_append_pair (c : List Byte) (low high : Byte) :
    checkInterior (c ++ [low, high]) = .checked c (fcsValue low high) := by
  have hlast2 : (c ++ [low, high]).length - 2 = c.length := by simp
  have hlast1 : (c ++ [low, high]).length - 1 = c.length + 1 := by simp
  have hlong : ¬(c ++ [low, high]).length < 2 := by simp
  have hlow : (c ++ [low, high]).getD c.length 0 = low := by simp
  have hhigh : (c ++ [low, high]).getD (c.length + 1) 0 = high := by simp
  rw [checkInterior, if_neg hlong, hlast2, hlast1, hlow, hhigh, List.take_left]
  rfl

/-- A sequence of two bytes or more is a content and two bytes. -/
theorem exists_eq_append_pair {u : List Byte} (h : 2 ≤ u.length) : ∃ c low high, u = c ++ [low, high] := by
  have hlen : (u.drop (u.length - 2)).length = 2 := by
    rw [List.length_drop]
    omega
  obtain ⟨low, high, hpair⟩ := List.length_eq_two.mp hlen
  exact ⟨u.take (u.length - 2), low, high, by rw [← hpair, List.take_append_drop]⟩

/-- In a valid interior the CRC over content and checksum leaves the residue (R154, R174). -/
theorem crcFold_of_valid {u : List Byte} (h : (checkInterior u).valid = true) : crcFold crcInit u = 0xF0B8 := by
  rcases Nat.lt_or_ge u.length 2 with hlen | hlen
  · rw [checkInterior_of_short hlen] at h
    cases h
  · obtain ⟨c, low, high, rfl⟩ := exists_eq_append_pair hlen
    rw [checkInterior_append_pair] at h
    have hfcs : fcsValue low high = crc16 c := of_decide_eq_true h
    rw [← fcsBytes_fcsValue, hfcs]
    exact crcResidueIsConstant c

/-! ## Different bytes have different checksums -/

/-- The bit that a round of the CRC step shifts out becomes the top bit of the result (R150). -/
theorem getLsbD_crcShift_top (c : BitVec 16) : (crcShift c).getLsbD 15 = c.getLsbD 0 := by
  unfold crcShift
  split
  next h => simp [h, crcPoly]
  next h => simpa using h

/-- So a round of the CRC step loses nothing. -/
theorem crcShift_injective : Function.Injective crcShift := by
  intro x y h
  have hbit : x.getLsbD 0 = y.getLsbD 0 := by rw [← getLsbD_crcShift_top, h, getLsbD_crcShift_top]
  have hrest : x >>> 1 = y >>> 1 := by
    unfold crcShift at h
    rw [hbit] at h
    split at h
    · exact (BitVec.xor_left_inj _).mp h
    · exact h
  refine BitVec.eq_of_getLsbD_eq fun i hi => ?_
  cases i with
  | zero => exact hbit
  | succ i => simpa [Nat.add_comm] using congrArg (BitVec.getLsbD · i) hrest

/-- Different registers stay different over any bytes. -/
theorem crcFold_injective (s : List Byte) : Function.Injective (crcFold · s) := by
  induction s with
  | nil => exact fun _ _ h => h
  | cons b s ih => exact fun c d h => (BitVec.xor_left_inj _).mp (crcShift_injective.iterate 8 (ih h))

/-- Different bytes leave different registers. -/
theorem crcStep_injective (c : BitVec 16) : Function.Injective (crcStep c) := by
  intro b d h
  have hwide : b.setWidth 16 = d.setWidth 16 := (BitVec.xor_right_inj _).mp (crcShift_injective.iterate 8 h)
  simpa using congrArg (BitVec.setWidth 8) hwide

/-- Sequences that differ in one byte have different checksums (R175 (d)). -/
theorem crcFold_ne_of_byte_ne {b d : Byte} (h : b ≠ d) (c : BitVec 16) (p q : List Byte) :
    crcFold c (p ++ b :: q) ≠ crcFold c (p ++ d :: q) := by
  rw [crcFold_append, crcFold_append]
  exact fun heq => h (crcStep_injective _ (crcFold_injective q heq))

/-! ## The frame decoder -/

/-- A sequence of fewer than two bytes, or without a marker at an end (R174). -/
abbrev Unmarked (w : List Byte) : Prop :=
  w.length < 2 ∨ w[0]? ≠ some marker ∨ w[w.length - 1]? ≠ some marker

theorem fromBytes_of_unmarked {w : List Byte} (h : Unmarked w) : fromBytes w = .closed true false := if_pos h

/-- Between two markers the interior is unstuffed and checked (R174). -/
theorem fromBytes_of_marked (m : List Byte) :
    fromBytes (marker :: m ++ [marker]) = (unstuff m).elim (.closed false true) checkInterior := by
  have hmarked : ¬Unmarked (marker :: m ++ [marker]) := by simp
  have hinterior : ((marker :: m ++ [marker]).take ((marker :: m ++ [marker]).length - 1)).drop 1 = m := by
    simp
  rw [fromBytes, if_neg hmarked, hinterior]
  cases unstuff m <;> rfl

/-- A sequence that starts and ends with a marker has an interior between them. -/
theorem exists_eq_marked {w : List Byte} (h : ¬Unmarked w) : ∃ m, w = marker :: m ++ [marker] := by
  simp only [Unmarked, not_or, not_not] at h
  obtain ⟨hlen, hfirst, hlast⟩ := h
  rw [← List.getLast?_eq_getElem?] at hlast
  obtain ⟨p, rfl⟩ := List.getLast?_eq_some_iff.mp hlast
  cases p with
  | nil => exact absurd Nat.one_lt_two hlen
  | cons b m => exact ⟨m, by rw [Option.some.inj hfirst]⟩

/-- What the frame decoder can give: a closed result, or the check of an interior that stood between two markers and
unstuffed to a content and two bytes (R174). -/
theorem fromBytes_cases (w : List Byte) :
    (∃ sync esc, fromBytes w = .closed sync esc) ∨
      ∃ m c low high, w = marker :: m ++ [marker] ∧ unstuff m = some (c ++ [low, high]) ∧
        fromBytes w = .checked c (fcsValue low high) := by
  by_cases hw : Unmarked w
  · exact .inl ⟨_, _, fromBytes_of_unmarked hw⟩
  obtain ⟨m, rfl⟩ := exists_eq_marked hw
  rw [fromBytes_of_marked]
  cases hu : unstuff m with
  | none => exact .inl ⟨_, _, rfl⟩
  | some u =>
    rcases Nat.lt_or_ge u.length 2 with hlen | hlen
    · exact .inl ⟨_, _, checkInterior_of_short hlen⟩
    · obtain ⟨c, low, high, rfl⟩ := exists_eq_append_pair hlen
      exact .inr ⟨m, c, low, high, rfl, hu, checkInterior_append_pair c low high⟩

/-- The content that is decoded is no longer than the sequence (R174). -/
theorem length_content_fromBytes_le (w : List Byte) : (fromBytes w).content.length ≤ w.length := by
  rcases fromBytes_cases w with ⟨sync, esc, h⟩ | ⟨m, c, low, high, rfl, hu, h⟩
  · rw [h]
    exact Nat.zero_le _
  · have hle := length_unstuff_le hu
    rw [h, FrameResult.checked]
    simp only [List.length_append, List.length_cons, List.length_nil] at hle ⊢
    omega

/-- A frame decodes to its content, which is valid (R175 (a)). -/
theorem fromBytes_toFrame {c : List Byte} (h : c ≠ []) : fromBytes (toFrame c) = .checked c (crc16 c) := by
  rw [toFrame_of_ne_nil h, fromBytes_of_marked, unstuff_stuff, Option.elim_some, fcsBytes, checkInterior_append_pair,
    fcsValue_extractLsb']

theorem FrameResult.checked_crc16 (c : List Byte) : FrameResult.checked c (crc16 c) =
    { content := c, expv := true, exp := crc16 c, act := crc16 c, valid := true, sync := false, esc := false } := by
  rw [checked, decide_eq_true rfl]

/-! ## How the commands of the family end -/

theorem SameRegs.trans {s t u : State} (h : SameRegs s t) (h' : SameRegs t u) : SameRegs s u :=
  fun r => (h' r).trans (h r)

theorem SameSums.trans {s t u : State} : SameSums s t → SameSums t u → SameSums s u
  | ⟨hcrc, hlrc⟩, ⟨hcrc', hlrc'⟩ => ⟨hcrc'.trans hcrc, hlrc'.trans hlrc⟩

theorem SameRecord.trans {s t u : State} : SameRecord s t → SameRecord t u → SameRecord s u
  | ⟨hcause, hcmd, hinfo⟩, ⟨hcause', hcmd', hinfo'⟩ => ⟨hcause'.trans hcause, hcmd'.trans hcmd, hinfo'.trans hinfo⟩

/-- A span that ends at the end of its buffer is all its contents (R44). -/
theorem Buffer.span_eq_contents {b : Buffer} (h : b.off = b.len) : b.span = b.contents := by
  rw [span, contents, h]

/-- Bytes that fit the capacity replace `D`, and the command leaves all else alone (R45). -/
theorem finish_replaceD {s : State} {bytes : List Byte} (h : bytes.length ≤ s.config.cap) :
    ∃ t, finish s (replaceD bytes s) = .next t ∧ t.bufD.contents = bytes ∧ t.bufD.len = bytes.length ∧
      t.bufD.off = bytes.length ∧ SameBuf .S s t ∧ SameRegs s t ∧ SameRest s t ∧ Answers 0 s t := by
  obtain ⟨hother, hframe⟩ := s.setBuf_frame .D (Buffer.ofBytes bytes)
  exact ⟨(s.setBuf .D (Buffer.ofBytes bytes)).answered 0, congrArg (finish s) (replaceD_fits h),
    Buffer.contents_ofBytes bytes, rfl, rfl, hother .S nofun, hframe⟩

/-- Bytes of the span of `S`, or fewer, fit the capacity (R21, R44). -/
theorem BufferOk.length_le {cap : Nat} {b : Buffer} (h : BufferOk cap b) {u : List Byte} (hu : u.length ≤ b.span.length) :
    u.length ≤ cap := by
  obtain ⟨hoff, hlen, -⟩ := h
  rw [Buffer.length_span] at hu
  omega

end Sys2Proof.Machine
end

section
/-! PROOF. The statements of the family `44_frame.md`: stuffing and unstuffing, the frame decoder and its check, and what the
commands of the framer write. -/

namespace Sys2Proof.Machine

/-- Settles O47, by the wire form of each byte. -/
theorem stuffingLeavesReservedBytesOnlyAsEscapes : Obligations.StuffingLeavesReservedBytesOnlyAsEscapes := fun s t =>
  ⟨length_le_length_stuff s, length_stuff_le s, stuff_append s t, not_mem_stuff (by decide) (by decide) s,
    not_mem_stuff (by decide) (by decide) s, not_mem_stuff (by decide) (by decide) s, substitute_after_escape s, rfl,
    length_toFrame_bounds⟩

/-- Settles O48: what follows a sequence that unstuffs is read on its own, so each clause is about its first bytes. -/
theorem unstuffReversesStuff : Obligations.UnstuffReversesStuff := by
  refine ⟨fun s => ⟨unstuff_stuff s, unstuff_of_not_mem⟩, rfl, fun p u hu => ⟨length_unstuff_le hu, ?_, fun q =>
    ⟨unstuff_append hu q, fun b hb => ?_, fun r hr => ?_, fun b hb => ?_⟩⟩⟩
  · rw [unstuff_append hu]
    rfl
  · rw [unstuff_append hu, unstuff_cons hb, Option.map_map]
    rfl
  · have hrestore : ∀ r ∈ [(0x5E#8, 0x7E#8), (0x5D, 0x7D), (0x31, 0x11), (0x33, 0x13)], restore r.1 = some r.2 := by
      simp only [List.forall_mem_cons]
      exact ⟨rfl, rfl, rfl, rfl, List.forall_mem_nil _⟩
    rw [unstuff_append hu]
    change (unstuff (escapeByte :: r.1 :: q)).map _ = _
    rw [unstuff_escape (hrestore r hr), Option.map_map]
    rfl
  · rw [unstuff_append hu]
    change (unstuff (escapeByte :: b :: q)).map _ = _
    rw [unstuff_bad_escape (restore_eq_none_iff.mpr hb), Option.map_none]

/-- Settles O49: a marked sequence is decided by how its interior unstuffs, and a result is closed or checked. -/
theorem frameDecodeInvertsFrameEncode : Obligations.FrameDecodeInvertsFrameEncode := by
  refine ⟨fun c hc => (fromBytes_toFrame hc).trans (FrameResult.checked_crc16 c), fun w hw => ?_,
    fun m => ⟨fun hu => ?_, fun u hu hlen => ?_, fun c low high hu => ?_⟩, fun w => ?_⟩
  · rw [List.getLast?_eq_getElem?] at hw
    exact fromBytes_of_unmarked hw
  · exact (fromBytes_of_marked m).trans (by rw [hu]; rfl)
  · exact (fromBytes_of_marked m).trans (by rw [hu]; exact checkInterior_of_short hlen)
  · exact ⟨fcsValue low high, toNat_fcsValue low high,
      (fromBytes_of_marked m).trans (by rw [hu]; exact checkInterior_append_pair c low high)⟩
  · rcases fromBytes_cases w with ⟨sync, esc, h⟩ | ⟨m, c, low, high, -, -, h⟩
    · rw [h]
      exact ⟨nofun, fun _ => ⟨rfl, rfl, rfl, rfl⟩⟩
    · rw [h]
      exact ⟨fun _ => ⟨rfl, rfl⟩, nofun⟩

/-- Settles O50: both interiors would leave the residue, but a flipped bit changes what the CRC leaves. -/
theorem frameCheckDetectsASingleBitError : Obligations.FrameCheckDetectsASingleBitError := by
  rintro p q b j hj ⟨hvalid, hflipped⟩
  have hbit : ∀ j < 8, 1#8 <<< j ≠ 0#8 := by decide
  have hne : b ≠ b ^^^ (1#8 <<< j) := fun h =>
    hbit j hj ((BitVec.xor_right_inj b).mp (h.symm.trans BitVec.xor_zero.symm))
  exact crcFold_ne_of_byte_ne hne crcInit p q ((crcFold_of_valid hvalid).trans (crcFold_of_valid hflipped).symm)

/-- Settles O51, by whether the stuffed or framed span fits the capacity. -/
theorem stuffAndFrmencReplaceD : Obligations.StuffAndFrmencReplaceD := by
  refine ⟨rfl, rfl, fun s => ⟨fun hcap => ?_, ?_⟩⟩
  · have hlen := length_toFrame_le s.bufS.span
    rw [Buffer.length_span] at hlen
    exact hlen.trans hcap
  · simp only [List.forall_mem_cons]
    exact ⟨⟨finish_replaceD, fun h => finish_faultedAs (replaceD_full h)⟩,
      ⟨finish_replaceD, fun h => finish_faultedAs (replaceD_full h)⟩, List.forall_mem_nil _⟩

/-- Settles O52, by whether the span unstuffs; what it unstuffs to is no longer than it. -/
theorem unstuffReplacesD : Obligations.UnstuffReplacesD := by
  refine ⟨rfl, fun s => ⟨fun u hS hu => ?_, fun hu => ?_⟩⟩
  · simp only [exec, execUnstuff, hu]
    exact finish_replaceD (hS.length_le (length_unstuff_le hu))
  · simp only [exec, execUnstuff, hu]
    exact finish_faultedAs rfl

/-- Settles O53: the content is no longer than the span, so it always fits. -/
theorem frmdecReportsTheFrame : Obligations.FrmdecReportsTheFrame := by
  refine ⟨rfl, fun s hS => ?_⟩
  have hfits := replaceD_fits (hS.length_le (length_content_fromBytes_le s.bufS.span))
  refine ⟨((s.setBuf .D (Buffer.ofBytes (fromBytes s.bufS.span).content)).withFrameResult (fromBytes s.bufS.span)).answered 0,
    ?_, Buffer.contents_ofBytes _, rfl, rfl, rfl, rfl, rfl, ⟨rfl, rfl, fun _ => rfl⟩, fun _ => rfl, ⟨rfl, rfl⟩,
    ⟨rfl, rfl, rfl⟩, rfl, ⟨rfl, rfl, rfl, rfl⟩, rfl⟩
  simp only [exec, execFrmdec, hfits]
  rfl

/-- Settles O54: each command ends as its own statement says, and `FRMDEC` reads the frame that `FRMENC` wrote. -/
theorem frmencThenFrmdecGivesTheContentBack : Obligations.FrmencThenFrmdecGivesTheContentBack := by
  intro s hs hpos hcap
  obtain ⟨-, -, hencode⟩ := stuffAndFrmencReplaceD
  obtain ⟨hfits, houtput⟩ := hencode s
  obtain ⟨hframe, -⟩ := houtput (.frmenc, toFrame s.bufS.span) (.tail _ (.head _))
  obtain ⟨t, ht, hcontents, hlen, hoff, -, hregsT, ⟨hsumsT, hstatusT, -, hrecordT, hmtT, -⟩, -⟩ := hframe (hfits hcap)
  obtain ⟨-, hbswap⟩ := bswapExchangesTheBuffers
  obtain ⟨u, -, hu, ⟨hswap, -⟩, hregsU, ⟨hsumsU, hstatusU, -, hrecordU, hmtU, -⟩, -⟩ := hbswap t
  have hU : Inv u := exec_keeps_inv (exec_keeps_inv hs ht) hu
  obtain ⟨-, hfrmdec⟩ := frmdecReportsTheFrame
  obtain ⟨v, hv, hcontent, -, -, hexp, hact, hstatusV, -, hregsV, hsumsV, hrecordV, hmtV, -⟩ := hfrmdec u hU.bufS
  have hne : s.bufS.span ≠ [] := List.length_pos_iff.mp (by rwa [Buffer.length_span])
  have hdecoded : fromBytes u.bufS.span = .checked s.bufS.span (crc16 s.bufS.span) := by
    rw [hswap, Buffer.span_eq_contents (hoff.trans hlen.symm), hcontents, fromBytes_toFrame hne]
  have hstatus : u.status = s.status := hstatusU.trans hstatusT
  rw [hdecoded, FrameResult.checked_crc16] at hcontent hstatusV hexp hact
  refine ⟨t, u, v, ht, hu, hv, hcontent, hstatus ▸ hstatusV, hexp, hact,
    SameRegs.trans (SameRegs.trans hregsT hregsU) hregsV, SameSums.trans (SameSums.trans hsumsT hsumsU) hsumsV,
    SameRecord.trans (SameRecord.trans hrecordT hrecordU) hrecordV, hmtV.trans (hmtU.trans hmtT)⟩

end Sys2Proof.Machine
end

section
/-! SUPPORT. The fault code of the one response that a command gives, read off how its body ends (R4, R201, R203). -/

namespace Sys2Proof.Machine

/-- A body after which the response's code is one of `cs`: 0 if it completes, the fault's own code if it raises one. -/
def Effect.AnswersIn (cs : List (BitVec 8)) : Effect → Prop
  | .ok _ => 0 ∈ cs
  | .error (f, _) => f.code ∈ cs

/-- The response that a completed command puts last has code 0 (R4). -/
theorem State.fault_of_answered {u : State} {d : Word} {q : List Response} {a : Response}
    (ha : (u.answered d).responses = q ++ [a]) : a.fault = 0 := by
  obtain ⟨-, hlast⟩ := List.append_inj' ha rfl
  cases hlast
  rfl

/-- The response that a fault puts last has the fault's code (R203). -/
theorem State.fault_of_faulted {s : State} {f : FaultCode} {info : Nat} {q : List Response} {a : Response}
    (ha : (s.faulted f info).responses = q ++ [a]) : a.fault = f.code := by
  obtain ⟨-, hlast⟩ := List.append_inj' ha rfl
  cases hlast
  rfl

theorem finish_fault_mem {s t : State} {e : Effect} {a : Response} (cs : List (BitVec 8)) (h : finish s e = .next t)
    (ha : t.responses = s.responses ++ [a]) (he : e.AnswersIn cs) : a.fault ∈ cs := by
  rcases finish_cases h with ⟨u, rfl, rfl⟩ | ⟨f, info, rfl, rfl⟩
  · exact State.fault_of_answered ha ▸ he
  · exact State.fault_of_faulted ha ▸ he

theorem Effect.AnswersIn.ok {cs : List (BitVec 8)} {u : State} (h : 0 ∈ cs) : Effect.AnswersIn cs (.ok u) := h

/-- A body that raises a fault under a condition. -/
theorem Effect.AnswersIn.guarded {cs : List (BitVec 8)} (c : Prop) [Decidable c] {f : FaultCode} {info : Nat} {e : Effect}
    (hf : f.code ∈ cs) (he : e.AnswersIn cs) : Effect.AnswersIn cs (if c then .error (f, info) else e) := by
  split
  · exact hf
  · exact he

/-- A body that writes at a cursor (R41). -/
theorem Effect.AnswersIn.putBytes (k : BufSel) (bytes : List Byte) (s : State) :
    Effect.AnswersIn [0, 2] (putBytes k bytes s) :=
  .guarded _ (by decide) (.ok (by decide))

/-- A body that replaces the destination buffer (R45): code 3 needs to be allowed only if the bytes do not fit. -/
theorem Effect.AnswersIn.replaceD {cs : List (BitVec 8)} {bytes : List Byte} {s : State} (hok : 0 ∈ cs)
    (hfull : s.config.cap < bytes.length → 3 ∈ cs) : Effect.AnswersIn cs (replaceD bytes s) := by
  rcases replaceD_cases bytes s with ⟨-, hr⟩ | ⟨hlen, hr⟩
  · exact hr ▸ hok
  · exact hr ▸ hfull hlen

theorem Effect.AnswersIn.map {cs : List (BitVec 8)} {e : Effect} (g : State → State) (he : e.AnswersIn cs) :
    Effect.AnswersIn cs (e.map g) := by
  cases e with
  | ok u => exact he
  | error x => exact he

end Sys2Proof.Machine
end

section
/-! PROOF. The statement of the family `60_exceptions.md`: which fault codes each command can be answered with. -/

namespace Sys2Proof.Machine

/-- Settles O56, by the faults that each body can raise. Neither `UNSTUFF` nor `FRMDEC` makes more bytes than the span of `S`
has, so they overrun the capacity only with the cursor past it. The cases that are not named always complete. -/
theorem eachCommandRaisesOnlyItsFaults : Obligations.EachCommandRaisesOnlyItsFaults := by
  intro i s t a h ha
  cases i with
  | csrr rd csr =>
    refine finish_fault_mem [0, 1] h ha ?_
    cases Csr.ofNumber csr.toNat with
    | some c => exact .head _
    | none => exact .tail _ (.head _)
  | csrw rs csr =>
    refine finish_fault_mem [0, 1] h ha ?_
    cases (Csr.ofNumber csr.toNat).bind fun c => s.writeCsr c (s.reg rs) with
    | some u => exact .head _
    | none => exact .tail _ (.head _)
  | bput | bputx | extenc => exact finish_fault_mem [0, 2] h ha (.putBytes ..)
  | bget => exact finish_fault_mem [0, 2] h ha (.guarded _ (by decide) (.ok (by decide)))
  | bnew => exact finish_fault_mem [0, 3] h ha (.guarded _ (by decide) (.ok (by decide)))
  | stuff | frmenc => exact finish_fault_mem [0, 3] h ha (.replaceD (by decide) fun _ => by decide)
  | bfext | bffill => exact finish_fault_mem [0, 4] h ha (.guarded _ (by decide) (.ok (by decide)))
  | mtset =>
    exact finish_fault_mem [0, 4, 7] h ha (.guarded _ (by decide) (.guarded _ (by decide) (.ok (by decide))))
  | extdec => exact finish_fault_mem [0, 5] h ha (.guarded _ (by decide) (.ok (by decide)))
  | bseek => exact finish_fault_mem [0, 8] h ha (.guarded _ (by decide) (.ok (by decide)))
  | unstuff =>
    refine finish_fault_mem (if s.bufS.off ≤ s.config.cap then [0, 6] else [0, 3, 6]) h ha ?_
    cases hu : unstuff s.bufS.span with
    | none =>
      change FaultCode.escapeError.code ∈ _
      split <;> decide
    | some u =>
      have hlen : u.length ≤ s.bufS.off := s.bufS.length_span ▸ length_unstuff_le hu
      refine .replaceD (by split <;> decide) fun hfull => ?_
      rw [if_neg (by omega)]
      decide
  | frmdec =>
    refine finish_fault_mem (if s.bufS.off ≤ s.config.cap then [0] else [0, 3]) h ha (.map _ ?_)
    have hlen : (fromBytes s.bufS.span).content.length ≤ s.bufS.off :=
      s.bufS.length_span ▸ length_content_fromBytes_le s.bufS.span
    refine .replaceD (by split <;> decide) fun hfull => ?_
    rw [if_neg (by omega)]
    decide
  | _ =>
    cases h
    exact List.mem_singleton.mpr (State.fault_of_answered ha)

end Sys2Proof.Machine
end

section
/-! SUPPORT. What a run of commands leaves (R239, R240): the port of each command, its one response, and what `ERR` tells
about the responses; and the crc register, which the framer carries along (R235). -/

namespace Sys2Proof.Machine

/-! ## The port -/

/-- No body writes the parameters or the port, that of `RST` included (R101, R231). -/
theorem Leaves.samePort {i : Instr} {s u : State} (h : Leaves i s u) : SamePort s u := by
  by_cases hi : i = .rst
  · subst hi
    cases h
    exact ⟨rfl, rfl, rfl, rfl⟩
  · obtain ⟨hport, -⟩ := h.sameOutcome hi
    exact hport

theorem exec_samePort {i : Instr} {s t : State} (h : exec i s = .next t) : SamePort s t := by
  rcases exec_ends h with ⟨f, info, rfl⟩ | ⟨u, rdata, rfl, hu, -⟩
  · exact ⟨rfl, rfl, rfl, rfl⟩
  · exact hu.samePort

/-! ## One command -/

/-- `ERR` is set in `t` exactly when it was set in `s` or one of the responses `q` carries a fault code (R204). -/
def ErrTells (q : List Response) (s t : State) : Prop :=
  RecordedFault t ↔ RecordedFault s ∨ ∃ a ∈ q, a.fault ≠ 0

theorem ErrTells.nil (s : State) : ErrTells [] s s := by
  simp [ErrTells]

theorem ErrTells.cons {a : Response} {q : List Response} {s t u : State} (ha : ErrTells [a] s t)
    (hq : ErrTells q t u) : ErrTells (a :: q) s u := by
  unfold ErrTells at *
  rw [hq, ha, or_assoc]
  simp

theorem ErrTells.of_completed {a : Response} {s t : State} (ha : a.fault = 0) (herr : t.status.err = s.status.err) :
    ErrTells [a] s t := by
  simp [ErrTells, RecordedFault, ha, herr]

theorem ErrTells.of_faulted {a : Response} {s t : State} (ha : a.fault ≠ 0) (herr : t.status.err = true) :
    ErrTells [a] s t :=
  iff_of_true herr (.inr ⟨a, List.mem_singleton_self a, ha⟩)

/-- Every command gives one response, and `ERR` tells whether it is a fault's, unless the command is `RST`. -/
theorem exec_responds {i : Instr} {s t : State} (h : exec i s = .next t) :
    ∃ a, t.responses = s.responses ++ [a] ∧ (i ≠ .rst → ErrTells [a] s t) := by
  obtain ⟨a, hresponses, -, hfaulted, hcompleted⟩ := aFaultChangesOnlyTheFaultRecord i s t h
  refine ⟨a, hresponses, fun hi => ?_⟩
  by_cases hf : a.fault = 0
  · obtain ⟨-, herr⟩ := hcompleted hf hi
    exact .of_completed hf herr
  · obtain ⟨-, ht⟩ := hfaulted hf
    exact .of_faulted hf (congrArg (·.status.err) ht)

/-- A step that takes a command word leaves the inputs after it and gives one response, whether the word decodes or
not (R65, R240). -/
theorem step_command_responds {s : State} {w : BitVec 32} {d : Word} {rest : List HostInput}
    (h : s.inputs = .command w d :: rest) :
    ∃ t a, step s = .next t ∧ t.inputs = rest ∧ t.responses = s.responses ++ [a] ∧
      (decode w ≠ .ok .rst → ErrTells [a] s t) := by
  cases hdec : decode w with
  | ok i =>
    obtain ⟨t, ht⟩ := exec_next i (s.accept w d rest)
    obtain ⟨-, hinputs, -⟩ := exec_samePort ht
    obtain ⟨a, hresponses, herr⟩ := exec_responds ht
    exact ⟨t, a, (step_command_ok h hdec).trans ht, hinputs, hresponses, fun hi => herr fun hrst => hi (hrst ▸ rfl)⟩
  | error e =>
    exact ⟨_, _, step_command_error h hdec, rfl, State.faulted_responses ..,
      fun _ => .of_faulted (FaultCode.code_ne_zero .illegalCommand) rfl⟩

/-! ## A run of commands -/

/-- A run of a list of commands, by induction on the list: each step takes one command and gives one response. -/
theorem run_commands (p : List (BitVec 32 × Word)) (s : State)
    (h : s.inputs = p.map fun c => HostInput.command c.1 c.2) :
    ∃ t answers, Host.Core.run Sys2Proof.core p.length s = .next t ∧ t.inputs = [] ∧
      t.responses = s.responses ++ answers ∧ answers.length = p.length ∧
      ((∀ c ∈ p, decode c.1 ≠ .ok .rst) → ErrTells answers s t) := by
  induction p generalizing s with
  | nil => exact ⟨s, [], rfl, h, (List.append_nil _).symm, rfl, fun _ => ErrTells.nil s⟩
  | cons c p ih =>
    obtain ⟨t, a, hstep, hrest, hresponse, herr⟩ := step_command_responds h
    obtain ⟨u, answers, hrun, hinputs, hresponses, hlength, herrs⟩ := ih t hrest
    refine ⟨u, a :: answers, (run_next (M := Sys2Proof.core) hstep p.length).trans hrun, hinputs, ?_,
      congrArg (· + 1) hlength, fun hp => ?_⟩
    · rw [hresponses, hresponse, List.append_assoc, List.singleton_append]
    · obtain ⟨hc, hp⟩ := List.forall_mem_cons.mp hp
      exact (herr hc).cons (herrs hp)

/-! ## The crc register -/

/-- The state `s` with the running checksum `c`. -/
def State.withCrc (s : State) (c : BitVec 16) : State :=
  { s with crc := c }

/-- A body that carries another running checksum along ends its command in the same way, with that checksum kept. -/
theorem finish_map_withCrc {s t : State} {e : Effect} (h : finish s e = .next t) (c : BitVec 16) :
    finish (s.withCrc c) (e.map (·.withCrc c)) = .next (t.withCrc c) := by
  rcases finish_cases h with ⟨u, rfl, rfl⟩ | ⟨f, info, rfl, rfl⟩ <;> rfl

/-- Whether bytes fit the destination buffer does not depend on the running checksum (R45). -/
theorem replaceD_withCrc (bytes : List Byte) (s : State) (c : BitVec 16) :
    replaceD bytes (s.withCrc c) = (replaceD bytes s).map (·.withCrc c) := by
  rcases replaceD_cases bytes s with ⟨hfit, hr⟩ | ⟨hfull, hr⟩
  · rw [hr]
    exact replaceD_fits hfit
  · rw [hr]
    exact replaceD_full hfull

theorem execFrmenc_withCrc {s t : State} (h : exec .frmenc s = .next t) (c : BitVec 16) :
    exec .frmenc (s.withCrc c) = .next (t.withCrc c) := by
  change finish (s.withCrc c) (replaceD (toFrame s.bufS.span) (s.withCrc c)) = _
  rw [replaceD_withCrc]
  exact finish_map_withCrc h c

theorem execFrmdec_withCrc {s t : State} (h : exec .frmdec s = .next t) (c : BitVec 16) :
    exec .frmdec (s.withCrc c) = .next (t.withCrc c) := by
  have hbody (e : Effect) (r : FrameResult) :
      (e.map (·.withCrc c)).map (·.withFrameResult r) = (e.map (·.withFrameResult r)).map (·.withCrc c) := by
    cases e <;> rfl
  change finish (s.withCrc c) ((replaceD (fromBytes s.bufS.span).content (s.withCrc c)).map
    (·.withFrameResult (fromBytes s.bufS.span))) = _
  rw [replaceD_withCrc, hbody]
  exact finish_map_withCrc h c

/-- A command that keeps whatever running checksum it starts with keeps the one it did start with. -/
theorem crc_eq_of_exec_withCrc {i : Instr} {s t : State} (h : exec i s = .next t)
    (hc : ∀ c, exec i (s.withCrc c) = .next (t.withCrc c)) : t.crc = s.crc := by
  have ht : t = t.withCrc s.crc := Host.Outcome.next.inj (h.symm.trans (hc s.crc))
  calc
    t.crc = (t.withCrc s.crc).crc := congrArg State.crc ht
    _ = s.crc := rfl

end Sys2Proof.Machine
end

section
/-! PROOF. The statements of the family `70_reset_and_hazards.md`: reset and `RST`, the parameters, runs of commands, and
the running checksum beside the framer. -/

namespace Sys2Proof.Machine

/-- Settles O7, by induction on the commands. -/
theorem everyRunEndsWithOneResponsePerCommand : Obligations.EveryRunEndsWithOneResponsePerCommand := by
  intro p s hin
  obtain ⟨t, answers, hrun, hinputs, hresponses, hlength, -⟩ := run_commands p s hin
  exact ⟨t, answers, hrun, hinputs, hresponses, hlength⟩

/-- Settles O8: `ERR` starts clear, so what it tells at the end is about the responses of the run alone. -/
theorem runSetsErrExactlyWhenACommandFaulted : Obligations.RunSetsErrExactlyWhenACommandFaulted := by
  intro p s t hin hp hclear hrun
  obtain ⟨u, answers, hrun', -, hresponses, -, herr⟩ := run_commands p s hin
  obtain rfl : t = u := Host.Outcome.next.inj (hrun.symm.trans hrun')
  rw [hresponses, List.drop_left]
  exact (herr hp).trans (or_iff_right hclear)

/-- Settles O11, by what a step does: nothing, a reset, a command, or `IllegalCommand`. -/
theorem noStepChangesTheParameters : Obligations.NoStepChangesTheParameters := by
  intro s t h
  rcases step_cases h with ⟨-, rfl⟩ | ⟨rest, -, rfl⟩ | ⟨w, d, rest, -, ⟨i, -, hexec⟩ | ⟨e, -, rfl⟩⟩
  · rfl
  · rfl
  · obtain ⟨hconfig, -⟩ := exec_samePort hexec
    exact hconfig
  · rfl

/-- Settles O60: each frame command carries any running checksum along, its own included. -/
theorem frameCommandsIgnoreTheRunningCrc : Obligations.FrameCommandsIgnoreTheRunningCrc := by
  intro c s t i hi h
  have hcarried : ∀ c, exec i (s.withCrc c) = .next (t.withCrc c) := by
    rcases List.mem_pair.mp hi with rfl | rfl
    · exact execFrmenc_withCrc h
    · exact execFrmdec_withCrc h
  exact ⟨crc_eq_of_exec_withCrc h hcarried, hcarried c⟩

/-- Settles O3: the reset event and the body of `RST` both put the state at `toReset`. -/
theorem resetEventLeavesWhatRstLeaves : Obligations.ResetEventLeavesWhatRstLeaves := by
  intro s rest hin
  exact ⟨s.acceptReset rest, s.toReset.answered 0, step_reset hin, rfl, rfl⟩

end Sys2Proof.Machine
end
